-- ==== Sys2Proof/Word.lean ====
section
/-! DEFINITION. The word types of the CHIP-8 core (spec/00_scope.md section 4, spec/10_state.md). -/

namespace Sys2Proof

/-- A V register, a timer, a memory byte (R19, R30, R59). -/
abbrev Byte := BitVec 8

/-- PC, I, a stack slot, an opcode (R23, R24, R26, R80). -/
abbrev Word := BitVec 16

/-- A register index 0..15 (R20). -/
abbrev RegIdx := Fin 16

/-- A logical key 0x0..0xF (R34). -/
abbrev KeyIdx := Fin 16

/-- VF, the flag register (R21). -/
abbrev regVF : RegIdx := 15

end Sys2Proof
end

