-- ==== Sys2Proof/Syntax.lean ====
section
/-! DEFINITION. The instructions: one constructor per row of spec/opcode_table.json, in the table's order (R90). -/

namespace Sys2Proof

/-- The 34 instructions of R90. `x`, `y` are register indices (R82, R83), `kk` an 8-bit immediate (R85),
`nnn` a 12-bit address (R86), `n` the row count of a sprite (R84). -/
inductive Instr where
  /-- `00E0` CLS (R150). -/
  | cls
  /-- `00EE` RET (R113). -/
  | ret
  /-- `1nnn` JP nnn (R114). -/
  | jp (nnn : BitVec 12)
  /-- `2nnn` CALL nnn (R115). -/
  | call (nnn : BitVec 12)
  /-- `3xkk` SE Vx, kk (R116). -/
  | seImm (x : RegIdx) (kk : Byte)
  /-- `4xkk` SNE Vx, kk (R117). -/
  | sneImm (x : RegIdx) (kk : Byte)
  /-- `5xy0` SE Vx, Vy (R118). -/
  | seReg (x y : RegIdx)
  /-- `6xkk` LD Vx, kk (R125). -/
  | ldImm (x : RegIdx) (kk : Byte)
  /-- `7xkk` ADD Vx, kk (R126). -/
  | addImm (x : RegIdx) (kk : Byte)
  /-- `8xy0` LD Vx, Vy (R127). -/
  | ldReg (x y : RegIdx)
  /-- `8xy1` OR Vx, Vy (R128). -/
  | orReg (x y : RegIdx)
  /-- `8xy2` AND Vx, Vy (R129). -/
  | andReg (x y : RegIdx)
  /-- `8xy3` XOR Vx, Vy (R130). -/
  | xorReg (x y : RegIdx)
  /-- `8xy4` ADD Vx, Vy (R131). -/
  | addReg (x y : RegIdx)
  /-- `8xy5` SUB Vx, Vy (R132). -/
  | sub (x y : RegIdx)
  /-- `8xy6` SHR Vx (R133); `y` is decoded and not read. -/
  | shr (x y : RegIdx)
  /-- `8xy7` SUBN Vx, Vy (R134). -/
  | subn (x y : RegIdx)
  /-- `8xyE` SHL Vx (R135); `y` is decoded and not read. -/
  | shl (x y : RegIdx)
  /-- `9xy0` SNE Vx, Vy (R119). -/
  | sneReg (x y : RegIdx)
  /-- `Annn` LD I, nnn (R139). -/
  | ldI (nnn : BitVec 12)
  /-- `Bnnn` JP V0, nnn (R120). -/
  | jpV0 (nnn : BitVec 12)
  /-- `Cxkk` RND Vx, kk (R136). -/
  | rnd (x : RegIdx) (kk : Byte)
  /-- `Dxyn` DRW Vx, Vy, n (R151). -/
  | drw (x y : RegIdx) (n : Nat)
  /-- `Ex9E` SKP Vx (R154). -/
  | skp (x : RegIdx)
  /-- `ExA1` SKNP Vx (R155). -/
  | sknp (x : RegIdx)
  /-- `Fx07` LD Vx, DT (R157). -/
  | ldVxDt (x : RegIdx)
  /-- `Fx0A` LD Vx, K (R156). -/
  | ldVxK (x : RegIdx)
  /-- `Fx15` LD DT, Vx (R158). -/
  | ldDtVx (x : RegIdx)
  /-- `Fx18` LD ST, Vx (R159). -/
  | ldStVx (x : RegIdx)
  /-- `Fx1E` ADD I, Vx (R140). -/
  | addI (x : RegIdx)
  /-- `Fx29` LD F, Vx (R141). -/
  | ldF (x : RegIdx)
  /-- `Fx33` LD B, Vx (R142). -/
  | ldB (x : RegIdx)
  /-- `Fx55` LD [I], Vx (R143). -/
  | ldMemVx (x : RegIdx)
  /-- `Fx65` LD Vx, [I] (R144). -/
  | ldVxMem (x : RegIdx)
deriving DecidableEq, Repr

end Sys2Proof
end

