-- ==== Sys2Proof/Config.lean ====
section
/-! DEFINITION. What is fixed for the block (the parameters of R8), the host's port writes, and the free inputs. -/

namespace Sys2Proof

/-- What the host may do to the block between two cycles (R48, R52, R53). -/
inductive PortWrite where
  /-- `KeySet(k)`: `KEY[k] <- 1`. -/
  | keySet (k : KeyIdx)
  /-- `KeyClear(k)`: `KEY[k] <- 0`. -/
  | keyClear (k : KeyIdx)
  /-- `KeyWriteAll(b)`: bit `k` of `b` to `KEY[k]`. -/
  | keyWriteAll (b : BitVec 16)
  /-- `DirtyClear`: `dirty <- 0`. -/
  | dirtyClear
deriving DecidableEq, Repr

namespace Config

/-- `MEM_SIZE` (R8, R59): addresses 0x000..0xFFF. -/
abbrev memSize : Nat := 4096

/-- `PROG_START` (R8): where the ROM is loaded and PC starts. -/
abbrev progStart : Nat := 0x200

/-- `MAX_ROM` (R8): 4096 - 512 bytes. -/
abbrev maxRom : Nat := 3584

/-- `FONT_SIZE` (R8): 16 glyphs of 5 bytes, at `FONT_BASE` = 0x000. -/
abbrev fontSize : Nat := 80

/-- `STACK_CAPACITY` (R8, R26; 90_conflicts.md C1; log 12). -/
abbrev stackCapacity : Nat := 16

/-- `DISPLAY_W` (R8). -/
abbrev displayW : Nat := 64

/-- `DISPLAY_H` (R8). -/
abbrev displayH : Nat := 32

/-- The sixteen glyphs of the default `FONT`, five rows each (R185; PRESUMED by the spec itself, D24; log 7). -/
def defaultGlyphs : List (List Byte) :=
  [[0xF0, 0x90, 0x90, 0x90, 0xF0],
   [0x20, 0x60, 0x20, 0x20, 0x70],
   [0xF0, 0x10, 0xF0, 0x80, 0xF0],
   [0xF0, 0x10, 0xF0, 0x10, 0xF0]] ++
  [[0x90, 0x90, 0xF0, 0x10, 0x10],
   [0xF0, 0x80, 0xF0, 0x10, 0xF0],
   [0xF0, 0x80, 0xF0, 0x90, 0xF0],
   [0xF0, 0x10, 0x20, 0x40, 0x40]] ++
  [[0xF0, 0x90, 0xF0, 0x90, 0xF0],
   [0xF0, 0x90, 0xF0, 0x10, 0xF0],
   [0xF0, 0x90, 0xF0, 0x90, 0x90],
   [0xE0, 0x90, 0xE0, 0x90, 0xE0]] ++
  [[0xF0, 0x80, 0x80, 0x80, 0xF0],
   [0xE0, 0x90, 0x90, 0x90, 0xE0],
   [0xF0, 0x80, 0xF0, 0x80, 0xF0],
   [0xF0, 0x80, 0xF0, 0x80, 0x80]]

/-- The default `FONT`: glyph `d` at bytes `5d..5d+4` (R62, R185). -/
def defaultFont : List Byte := defaultGlyphs.flatten

/-- The `rnd` byte of cycle number `n` where the host's requests in State do not give one: any byte (R36, U6; log 2). -/
opaque freeRnd : Nat → Byte

/-- The time from the previous cycle to cycle number `n` where the host's requests in State do not give one:
any amount, so that `now` never decreases (R50, R58, U7, U24; log 3). -/
opaque freeElapsed : Nat → Nat

/-- What the host writes to the ports before cycle number `n` where the host's requests in State do not say:
anything R52 and R53 allow (R58, U23; log 4). -/
opaque freePortWrites : Nat → List PortWrite

end Config
end Sys2Proof
end

