-- ==== Sys2Proof/Machine/State.lean ====
section
/-! DEFINITION. Everything the spec gives the machine, as plain data (spec/10_state.md), and the state after reset. -/

namespace Sys2Proof.Machine

/-- The 4096 bytes of R59, as the (address, byte) pairs whose byte differs from what an unlisted address reads as
(`Memory.unlisted` in Machine/Ops.lean), addresses strictly rising (`Memory.wf`). -/
abbrev Memory := List Host.Cell

/-- `FB[row][col]`, row 0..31, column 0..63, one bit each (R32). -/
abbrev Framebuffer := Vector (Vector Bool Config.displayW) Config.displayH

/-- The fatal errors of R160. -/
inductive FatalCode where
  /-- Code 1: an access would touch an address above 0xFFF. -/
  | memoryOutOfBounds
  /-- Code 2: a push on a full stack. -/
  | stackOverflow
  /-- Code 3: a pop of an empty stack. -/
  | stackUnderflow
  /-- Code 4: a ROM longer than 3584 bytes, at construction. -/
  | romTooLarge
  /-- Code 5: a key index above 15. -/
  | keyIndexOutOfBounds
deriving DecidableEq, Repr

/-- The record of a fatal error (R162): `none` where the rule says so. -/
structure FatalRecord where
  code : FatalCode
  op : Option Word
  pc : Option Word
deriving DecidableEq, Repr

/-- The engine's execution state (R35). -/
inductive Mode where
  | running
  /-- In the key wait of an Fx0A whose destination is `Vx` (R99). -/
  | awaitingKey (x : RegIdx)
  /-- Stopped by a fatal error, for good (R166). -/
  | faulted (rec : FatalRecord)
deriving DecidableEq, Repr

/-- What a cycle reports to the host (R51). -/
inductive CycleStatus where
  | ok
  | unsupported (op : Word) (pc : Word)
  | fatal (rec : FatalRecord)
deriving DecidableEq, Repr

/-- One request of the host: what it writes to the ports before the cycle (R52, R53), and the cycle's inputs `now` and
`rnd` (R50). -/
structure CycleRequest where
  writes : List PortWrite
  now : Nat
  rnd : Byte
deriving DecidableEq, Repr

/-- The whole machine. The fields down to `mem` are the block's state (R37, R186), then come the parameters fixed at
construction, the result ports, the input ports, and the model's own record of what the host asks (log 1). -/
structure State where
  /-- V0..VF (R19). -/
  v : Vector Byte 16
  /-- The index register, 12 bits effective (R23). -/
  i : Word
  /-- The program counter (R24). -/
  pc : Word
  /-- The number of stack entries, 0..16 (R26). -/
  sp : Fin (Config.stackCapacity + 1)
  /-- `STACK[0..15]` (R26). -/
  stack : Vector Word Config.stackCapacity
  /-- The delay timer (R30). -/
  delay : Byte
  /-- The sound timer (R30). -/
  sound : Byte
  /-- The time reference of the timer unit (R31). -/
  tRef : Nat
  /-- The framebuffer (R32). -/
  fb : Framebuffer
  /-- The dirty flag (R33). -/
  dirty : Bool
  /-- The keypad latch: bit `k` is `KEY[k]` (R34). -/
  key : BitVec 16
  /-- The engine's execution state (R35). -/
  mode : Mode
  /-- The memory (R59). -/
  mem : Memory
  /-- `SECOND`: time units per second (R8, R50; log 5). -/
  second : Nat
  /-- `FX1E_SETS_VF` (R8, R37; log 6). -/
  fx1eSetsVf : Bool
  /-- Result port `status`; `none` before the first cycle (R47, R51). -/
  status : Option CycleStatus
  /-- Result port `tone_complete` (R51, R175). -/
  toneComplete : Bool
  /-- Result port `rnd_taken` (R50, R51). -/
  rndTaken : Bool
  /-- Input port `now`, as sampled by the last cycle (R7, R50). -/
  now : Nat
  /-- Input port `rnd`, as sampled by the last cycle (R7, R36, R50). -/
  rnd : Byte
  /-- MODEL's own: the host's requests still to come, the next one first (log 1). -/
  requests : List CycleRequest
  /-- MODEL's own: how many cycles the host has requested, the argument of the free inputs (log 1). -/
  cycles : Nat
deriving DecidableEq, Repr

/-- The reasons for which a step could stop with a fault. There is none: every condition the spec calls fatal is taken
by the machine itself (`Mode.faulted`, R163), so nobody raises a fault. -/
inductive Fault where
deriving DecidableEq, Repr

/-- The reasons for which a step could be refused. -/
inductive Refusal where
  /-- Raised by an arm of `exec` whose instruction has no meaning in the model yet; no arm of this model does. Safe: the
  machine stops where the hardware goes on. -/
  | notModelled (mnemonic : String)
deriving DecidableEq, Repr

/-- The outcome of a step of this machine. -/
abbrev Outcome := Host.Outcome State Fault Refusal

/-- After construction with the default font and an empty ROM at time 0 (R40 to R47, R186): memory reads as
`Memory.unlisted` says. `second`, `now`, `tRef` (that is, `now0`), `rnd`, the font and the ROM are the construction's
arguments or the host's inputs, and the values here are named in log 1, 5, 6, 7, 8, 9 and 11. -/
def State.reset : State where
  v := Vector.replicate 16 0
  i := 0
  pc := 0x200
  sp := 0
  stack := Vector.replicate Config.stackCapacity 0
  delay := 0
  sound := 0
  tRef := 0
  fb := Vector.replicate Config.displayH (Vector.replicate Config.displayW false)
  dirty := false
  key := 0
  mode := .running
  mem := []
  second := 1000000
  fx1eSetsVf := false
  status := none
  toneComplete := false
  rndTaken := false
  now := 0
  rnd := 0
  requests := []
  cycles := 0

end Sys2Proof.Machine
end

