-- ==== Sys2Proof/Machine/Ops.lean ====
section
/-! DEFINITION. The named operations over memory, registers, stack, framebuffer and keypad; the PC actions (R103);
taking a fatal error (R163). -/

namespace Sys2Proof.Machine

/-! ## Memory (spec/20_memory.md) -/

/-- What an address that is not listed reads as: the contents after construction with the default font and an empty
ROM, that is the font at 0x000..0x04F and 0x00 elsewhere (R62, R181, R182, R185; log 7). -/
def Memory.unlisted (a : Nat) : Byte := Config.defaultFont.getD a 0

/-- `MEM[a]`, for `a` in 0x000..0xFFF (R14). A read changes nothing (R73). -/
def Memory.byteAt (m : Memory) (a : Nat) : Byte :=
  match m with
  | [] => Memory.unlisted a
  | c :: rest => if c.1 = a then c.2 else Memory.byteAt rest a

/-- `MEM[a] <- b`, for `a` in 0x000..0xFFF (R14), keeping the canonical form. -/
def Memory.setByte (m : Memory) (a : Nat) (b : Byte) : Memory :=
  match m with
  | [] => if b = Memory.unlisted a then [] else [(a, b)]
  | c :: rest =>
    if a < c.1 then (if b = Memory.unlisted a then c :: rest else (a, b) :: c :: rest)
    else if a = c.1 then (if b = Memory.unlisted a then rest else (a, b) :: rest)
    else c :: Memory.setByte rest a b

/-- The canonical form of the cells at `lo` and above: addresses strictly rising and inside the address space, no entry
equal to what its address reads as unlisted. -/
def Memory.wfFrom (lo : Nat) (m : Memory) : Bool :=
  match m with
  | [] => true
  | c :: rest =>
    decide (lo ≤ c.1) && decide (c.1 < Config.memSize) && decide (c.2 ≠ Memory.unlisted c.1)
      && Memory.wfFrom (c.1 + 1) rest

/-- The canonical form, in which equal memories are equal data. -/
def Memory.wf (m : Memory) : Bool := Memory.wfFrom 0 m

/-- The bounds check of R65 for the `m` bytes `a, a+1, …`: an access of no byte makes no check. -/
def inBounds (a m : Nat) : Bool := decide (m = 0 ∨ a + m ≤ Config.memSize)

/-- The bytes at `a, a+1, …, a+m-1`, ascending (R72). -/
def Memory.bytesFrom (mem : Memory) (a : Nat) : Nat → List Byte
  | 0 => []
  | m + 1 => Memory.byteAt mem a :: Memory.bytesFrom mem (a + 1) m

/-- Write the bytes to `a, a+1, …`, ascending (R72). -/
def Memory.setBytes (mem : Memory) (a : Nat) (bytes : List Byte) : Memory :=
  match bytes with
  | [] => mem
  | b :: rest => Memory.setBytes (Memory.setByte mem a b) (a + 1) rest

/-- A checked load of `m` bytes: all of them, or `none` where the check of R65 fails. -/
def Memory.load (mem : Memory) (a m : Nat) : Option (List Byte) :=
  if inBounds a m then some (Memory.bytesFrom mem a m) else none

/-- A checked store: all the bytes, or `none` where the check of R65 fails. -/
def Memory.store (mem : Memory) (a : Nat) (bytes : List Byte) : Option Memory :=
  if inBounds a bytes.length then some (Memory.setBytes mem a bytes) else none

/-! ## Registers (R15, R19) -/

/-- `V[x]`. -/
def State.reg (s : State) (x : RegIdx) : Byte := s.v[x.val]

/-- `V[x] <- b`. -/
def State.setReg (s : State) (x : RegIdx) (b : Byte) : State := { s with v := s.v.set x.val b }

/-- `I <- w`. -/
def State.setI (s : State) (w : Word) : State := { s with i := w }

/-- Write bytes to `V[x], V[x+1], …` (R144), as many as there are registers for. -/
def setRegsFrom (v : Vector Byte 16) (x : Nat) (bytes : List Byte) : Vector Byte 16 :=
  match bytes with
  | [] => v
  | b :: rest => setRegsFrom (if h : x < 16 then v.set x b h else v) (x + 1) rest

/-! ## The call stack (R26 to R28) -/

/-- `Push(w)` (R27): `none` is StackOverflow, checked before the write. -/
def State.push (s : State) (w : Word) : Option State :=
  if h : s.sp.val < Config.stackCapacity then
    some { s with stack := s.stack.set s.sp.val w h, sp := ⟨s.sp.val + 1, Nat.succ_lt_succ h⟩ }
  else none

/-- `Pop()` (R28): `none` is StackUnderflow; the slot keeps its value. -/
def State.pop (s : State) : Option (Word × State) :=
  if h : 0 < s.sp.val then
    some (s.stack[s.sp.val - 1]'(Nat.lt_of_lt_of_le (Nat.sub_lt h Nat.one_pos) (Nat.le_of_lt_succ s.sp.isLt)),
      { s with sp := ⟨s.sp.val - 1, Nat.lt_of_le_of_lt (Nat.sub_le _ _) s.sp.isLt⟩ })
  else none

/-! ## The framebuffer (R32) -/

/-- `FB[row][col]`. -/
def Framebuffer.pixel (fb : Framebuffer) (row : Fin Config.displayH) (col : Fin Config.displayW) : Bool :=
  (fb[row.val])[col.val]

/-- `FB[row][col] <- FB[row][col] ^ 1`. -/
def Framebuffer.toggle (fb : Framebuffer) (row : Fin Config.displayH) (col : Fin Config.displayW) : Framebuffer :=
  fb.set row.val ((fb[row.val]).set col.val (!(Framebuffer.pixel fb row col)))

/-- Every pixel 0 (R41, R150). -/
def Framebuffer.clear : Framebuffer := Vector.replicate Config.displayH (Vector.replicate Config.displayW false)

/-- `FB[row][col]` of the machine. -/
def State.pixel (s : State) (row : Fin Config.displayH) (col : Fin Config.displayW) : Bool :=
  Framebuffer.pixel s.fb row col

/-! ## The keypad latch (R34) -/

/-- `KEY[k]`. -/
def keyPressed (key : BitVec 16) (k : Nat) : Bool := key.getLsbD k

/-- The lowest-indexed pressed key (R99). -/
def lowestPressed (key : BitVec 16) : Option Nat := (List.range 16).find? (keyPressed key)

/-- What a port write does to the latch (R52). -/
def keyAfterWrite (key : BitVec 16) (w : PortWrite) : BitVec 16 :=
  match w with
  | .keySet k => key ||| (1#16 <<< k.val)
  | .keyClear k => key &&& ~~~(1#16 <<< k.val)
  | .keyWriteAll b => b
  | .dirtyClear => key

/-- What a port write does to the dirty flag (R53). -/
def dirtyAfterWrite (dirty : Bool) (w : PortWrite) : Bool :=
  match w with
  | .keySet _ => dirty
  | .keyClear _ => dirty
  | .keyWriteAll _ => dirty
  | .dirtyClear => false

/-! ## PC actions (R103) -/

/-- What an instruction's rule returns about PC. -/
inductive PcAction where
  /-- `PC <- pc0 + 2`. -/
  | advance
  /-- `PC <- pc0 + 4`. -/
  | skip
  /-- `PC <- t`. -/
  | set (t : Word)
  /-- PC stays at the instruction. -/
  | hold
deriving DecidableEq, Repr

/-- The next PC for the instruction at `pc0` (R103). -/
def nextPc (pc0 : Word) (a : PcAction) : Word :=
  match a with
  | .advance => pc0 + 2
  | .skip => pc0 + 4
  | .set t => t
  | .hold => pc0

/-- Skip if the condition holds, else advance (R105). -/
def skipIf (c : Bool) : PcAction := if c then .skip else .advance

/-- Update PC; until then it holds the instruction's own address (R24). -/
def State.act (s : State) (a : PcAction) : State := { s with pc := nextPc s.pc a }

/-! ## Taking a fatal error (R163 to R167)

There is no return from one: `Mode.faulted` is terminal (R166, R167). -/

/-- The result of a cycle that ends, or stays, in a fatal error (R98, R163). -/
def State.reportFatal (s : State) (rec : FatalRecord) : State :=
  { s with status := some (.fatal rec), toneComplete := false, rndTaken := false }

/-- `raise` (R16, R163): the record is (code, op, pc0), the mode is Faulted, nothing else of the block changes. -/
def State.raise (s : State) (code : FatalCode) (op : Option Word) : State :=
  State.reportFatal { s with mode := .faulted ⟨code, op, some s.pc⟩ } ⟨code, op, some s.pc⟩

/-- The fatal error of an instruction: `op` is its opcode (R162). -/
def State.raiseIn (s : State) (code : FatalCode) (i : Instr) : State := s.raise code (some (encode i))

end Sys2Proof.Machine
end

