-- ==== Sys2Proof/Machine/Flags.lean ====
section
/-! DEFINITION. Every flag computation of the spec. The flag is VF, and a flag is 0 or 1, never a raw bit (R21, R123). -/

namespace Sys2Proof.Machine

/-- `bool(c)` as the value of a flag (R13, R123). -/
def flagByte (c : Bool) : Byte := if c then 1 else 0

/-- `V[0xF] <- bool(c)`, written last (R122). -/
def State.setFlag (s : State) (c : Bool) : State := s.setReg regVF (flagByte c)

/-- Carry of 8xy4 (R131): `a + b > 255`. -/
def carryOut (a b : Byte) : Bool := decide (a.toNat + b.toNat > 255)

/-- No borrow in `a - b` (R132, R134): `a ≥ b`. -/
def noBorrow (a b : Byte) : Bool := decide (a.toNat ≥ b.toNat)

/-- The bit 8xy6 shifts out (R133): `a[0]`. -/
def shiftedOutRight (a : Byte) : Bool := a.getLsbD 0

/-- The bit 8xyE shifts out (R135): `a[7]`. -/
def shiftedOutLeft (a : Byte) : Bool := a.getLsbD 7

/-- Overflow of I in Fx1E (R140): the sum exceeds 0xFFF. -/
def indexOverflow (i : Word) (a : Byte) : Bool := decide (i.toNat + a.toNat > 0xFFF)

/-- A drawn pixel collides if it was 1 before (R148). -/
def collides (fb : Framebuffer) (row : Fin Config.displayH) (col : Fin Config.displayW) : Bool :=
  Framebuffer.pixel fb row col

end Sys2Proof.Machine
end

