-- ==== Sys2Proof/Machine/Operands.lean ====
section
/-! DEFINITION. Every operand form (R88, R89) and the values the rules form from operands. -/

namespace Sys2Proof.Machine

/-- `zext_16(nnn)` (R88). -/
def zext16 (nnn : BitVec 12) : Word := nnn.setWidth 16

/-- The target of Bnnn, not masked (R120): `zext_16(nnn) + V[0]`. -/
def indexedTarget (nnn : BitVec 12) (v0 : Byte) : Word := BitVec.ofNat 16 (nnn.toNat + v0.toNat)

/-- The one data address: register-indirect through I (R137). -/
def State.dataAddr (s : State) : Nat := s.i.toNat

/-- The implicit operand V0..Vx of Fx55, ascending (R89, R143). -/
def State.regsUpTo (s : State) (x : RegIdx) : List Byte := s.v.toList.take (x.val + 1)

/-- I of Fx29 (R141): `V[x] × 5`, the full value. -/
def glyphAddr (a : Byte) : Word := BitVec.ofNat 16 (a.toNat * 5)

/-- I of Fx1E (R140): `(I + V[x]) mod 4096`. -/
def indexSum (i : Word) (a : Byte) : Word := BitVec.ofNat 16 ((i.toNat + a.toNat) % 4096)

/-- The three bytes of Fx33 (R142): hundreds, tens, ones. -/
def bcdDigits (a : Byte) : List Byte :=
  [BitVec.ofNat 8 (a.toNat / 100), BitVec.ofNat 8 (a.toNat / 10 % 10), BitVec.ofNat 8 (a.toNat % 10)]

/-- `(a + b) mod 256` (R121). -/
def sum8 (a b : Byte) : Byte := BitVec.ofNat 8 ((a.toNat + b.toNat) % 256)

/-- `(a + 256 − b) mod 256` (R132). -/
def diff8 (a b : Byte) : Byte := BitVec.ofNat 8 ((a.toNat + 256 - b.toNat) % 256)

/-- `a >> 1` (R133). -/
def half8 (a : Byte) : Byte := BitVec.ofNat 8 (a.toNat / 2)

/-- `(a << 1) mod 256` (R135). -/
def double8 (a : Byte) : Byte := BitVec.ofNat 8 (a.toNat * 2 % 256)

/-- The row of sprite row `r` drawn from `y0` (R146). -/
def spriteRow (y0 : Byte) (r : Nat) : Fin Config.displayH := ⟨(y0.toNat + r) % 32, Nat.mod_lt _ (by decide)⟩

/-- The column of sprite column offset `j` drawn from `x0` (R146). -/
def spriteCol (x0 : Byte) (j : Nat) : Fin Config.displayW := ⟨(x0.toNat + j) % 64, Nat.mod_lt _ (by decide)⟩

/-- The sprite bit at column offset `j` of a row byte: bit 7 is the leftmost (R145). -/
def spriteBit (b : Byte) (j : Nat) : Bool := b.getLsbD (7 - j)

end Sys2Proof.Machine
end

