-- ==== Sys2Proof/Machine/Alu.lean ====
section
/-! DEFINITION. The meanings of spec/42_alu.md: loads, arithmetic, logic, shifts, random. Operands are read before
anything is written (R17), the result is written to Vx, and a flag to VF last (R122). -/

namespace Sys2Proof.Machine

/-- `V[x] <- b; return Advance`. -/
def writeReg (x : RegIdx) (b : Byte) (s : State) : Outcome := .next ((s.setReg x b).act .advance)

/-- `V[x] <- b; V[0xF] <- bool(c); return Advance` (R122). -/
def writeRegFlag (x : RegIdx) (b : Byte) (c : Bool) (s : State) : Outcome :=
  .next (((s.setReg x b).setFlag c).act .advance)

/-- LD Vx, kk (R125). -/
def execLdImm (x : RegIdx) (kk : Byte) (s : State) : Outcome := writeReg x kk s

/-- ADD Vx, kk (R126): the carry is discarded. -/
def execAddImm (x : RegIdx) (kk : Byte) (s : State) : Outcome := writeReg x (sum8 (s.reg x) kk) s

/-- LD Vx, Vy (R127). -/
def execLdReg (x y : RegIdx) (s : State) : Outcome := writeReg x (s.reg y) s

/-- OR Vx, Vy (R128). -/
def execOrReg (x y : RegIdx) (s : State) : Outcome := writeReg x (s.reg x ||| s.reg y) s

/-- AND Vx, Vy (R129). -/
def execAndReg (x y : RegIdx) (s : State) : Outcome := writeReg x (s.reg x &&& s.reg y) s

/-- XOR Vx, Vy (R130). -/
def execXorReg (x y : RegIdx) (s : State) : Outcome := writeReg x (s.reg x ^^^ s.reg y) s

/-- ADD Vx, Vy (R131). -/
def execAddReg (x y : RegIdx) (s : State) : Outcome :=
  writeRegFlag x (sum8 (s.reg x) (s.reg y)) (carryOut (s.reg x) (s.reg y)) s

/-- SUB Vx, Vy (R132). -/
def execSub (x y : RegIdx) (s : State) : Outcome :=
  writeRegFlag x (diff8 (s.reg x) (s.reg y)) (noBorrow (s.reg x) (s.reg y)) s

/-- SHR Vx (R133): `y` is not read. -/
def execShr (x _y : RegIdx) (s : State) : Outcome :=
  writeRegFlag x (half8 (s.reg x)) (shiftedOutRight (s.reg x)) s

/-- SUBN Vx, Vy (R134). -/
def execSubn (x y : RegIdx) (s : State) : Outcome :=
  writeRegFlag x (diff8 (s.reg y) (s.reg x)) (noBorrow (s.reg y) (s.reg x)) s

/-- SHL Vx (R135): `y` is not read. -/
def execShl (x _y : RegIdx) (s : State) : Outcome :=
  writeRegFlag x (double8 (s.reg x)) (shiftedOutLeft (s.reg x)) s

/-- RND Vx, kk (R136): the cycle's `rnd` input is taken. -/
def execRnd (x : RegIdx) (kk : Byte) (s : State) : Outcome :=
  writeReg x (s.rnd &&& kk) { s with rndTaken := true }

end Sys2Proof.Machine
end

