-- ==== Sys2Proof/Machine/Control.lean ====
section
/-! DEFINITION. The meanings of spec/41_control.md: return, jumps, call and the four register skips. A target is not
checked when it is set (R110). -/

namespace Sys2Proof.Machine

/-- RET (R113): `t <- Pop(); return Set(t)`. -/
def execRet (s : State) : Outcome :=
  match s.pop with
  | none => .next (s.raiseIn .stackUnderflow .ret)
  | some (t, s') => .next (s'.act (.set t))

/-- JP nnn (R114). -/
def execJp (nnn : BitVec 12) (s : State) : Outcome := .next (s.act (.set (zext16 nnn)))

/-- CALL nnn (R115): the address after the CALL is pushed (D4). -/
def execCall (nnn : BitVec 12) (s : State) : Outcome :=
  match s.push (s.pc + 2) with
  | none => .next (s.raiseIn .stackOverflow (.call nnn))
  | some s' => .next (s'.act (.set (zext16 nnn)))

/-- SE Vx, kk (R116). -/
def execSeImm (x : RegIdx) (kk : Byte) (s : State) : Outcome := .next (s.act (skipIf (s.reg x == kk)))

/-- SNE Vx, kk (R117). -/
def execSneImm (x : RegIdx) (kk : Byte) (s : State) : Outcome := .next (s.act (skipIf (s.reg x != kk)))

/-- SE Vx, Vy (R118). -/
def execSeReg (x y : RegIdx) (s : State) : Outcome := .next (s.act (skipIf (s.reg x == s.reg y)))

/-- SNE Vx, Vy (R119). -/
def execSneReg (x y : RegIdx) (s : State) : Outcome := .next (s.act (skipIf (s.reg x != s.reg y)))

/-- JP V0, nnn (R120): the index register is always V0. -/
def execJpV0 (nnn : BitVec 12) (s : State) : Outcome := .next (s.act (.set (indexedTarget nnn (s.reg 0))))

end Sys2Proof.Machine
end

