-- ==== Sys2Proof/Machine/Display.lean ====
section
/-! DEFINITION. The meanings of spec/44_display.md: clear, and XOR-draw with collision. -/

namespace Sys2Proof.Machine

/-- The framebuffer during a draw, with the collision flag c of R151. -/
structure Canvas where
  fb : Framebuffer
  hit : Bool
deriving DecidableEq, Repr

/-- Toggle the pixel under a 1 bit; a 0 bit leaves the canvas alone (R145, R148). -/
def drawBit (bit : Bool) (row : Fin Config.displayH) (col : Fin Config.displayW) (c : Canvas) : Canvas :=
  if bit then ⟨Framebuffer.toggle c.fb row col, c.hit || collides c.fb row col⟩ else c

/-- The inner loop of R151, over the column offsets `js`. -/
def drawRow (b : Byte) (row : Fin Config.displayH) (x0 : Byte) (js : List Nat) (c : Canvas) : Canvas :=
  match js with
  | [] => c
  | j :: rest => drawRow b row x0 rest (drawBit (spriteBit b j) row (spriteCol x0 j) c)

/-- The outer loop of R151: the rows `r, r+1, …` are the bytes. -/
def drawRows (x0 y0 : Byte) (r : Nat) (bytes : List Byte) (c : Canvas) : Canvas :=
  match bytes with
  | [] => c
  | b :: rest => drawRows x0 y0 (r + 1) rest (drawRow b (spriteRow y0 r) x0 (List.range 8) c)

/-! ## The pixels of one draw (R147) -/

/-- The pixel under each 1 bit of a sprite whose rows `r, r+1, …` are the bytes, row by row from the top and from the left
(R145, R146). The list has no repeats for at most 15 rows, so a draw toggles each pixel at most once (R147). -/
def spritePixels (x0 y0 : Byte) (r : Nat) (bytes : List Byte) : List (Fin Config.displayH × Fin Config.displayW) :=
  match bytes with
  | [] => []
  | b :: rest =>
    ((List.range 8).filter (spriteBit b)).map (fun j => (spriteRow y0 r, spriteCol x0 j))
      ++ spritePixels x0 y0 (r + 1) rest

/-- The toggles of a draw applied in the order of the list; any order of `spritePixels` draws the same as the loops of R151
(R147). -/
def drawPixels (ps : List (Fin Config.displayH × Fin Config.displayW)) (c : Canvas) : Canvas :=
  match ps with
  | [] => c
  | p :: rest => drawPixels rest (drawBit true p.1 p.2 c)

/-! ## The two instructions -/

/-- CLS (R150). -/
def execCls (s : State) : Outcome := .next (State.act { s with fb := Framebuffer.clear, dirty := true } .advance)

/-- DRW Vx, Vy, n (R151): pixels, then VF, then `dirty` (R149). -/
def execDrw (x y : RegIdx) (n : Nat) (s : State) : Outcome :=
  match Memory.load s.mem s.dataAddr n with
  | none => .next (s.raiseIn .memoryOutOfBounds (.drw x y n))
  | some bytes =>
    let c := drawRows (s.reg x) (s.reg y) 0 bytes ⟨s.fb, false⟩
    .next (State.act (State.setFlag { s with fb := c.fb, dirty := true } c.hit) .advance)

end Sys2Proof.Machine
end

