-- ==== Sys2Proof/Machine/IndexMemory.lean ====
section
/-! DEFINITION. The meanings of spec/43_index_memory.md: I, and transfers between V registers and memory at I. The whole
access is checked first (R65), and I is left unchanged by it (R137). -/

namespace Sys2Proof.Machine

/-- Store bytes at I and advance, or take MemoryOutOfBounds for the instruction `i` (R65). -/
def storeAtI (i : Instr) (bytes : List Byte) (s : State) : Outcome :=
  match Memory.store s.mem s.dataAddr bytes with
  | none => .next (s.raiseIn .memoryOutOfBounds i)
  | some mem => .next (State.act { s with mem := mem } .advance)

/-- LD I, nnn (R139). -/
def execLdI (nnn : BitVec 12) (s : State) : Outcome := .next ((s.setI (zext16 nnn)).act .advance)

/-- ADD I, Vx (R140): VF is written only with `FX1E_SETS_VF`, after I. -/
def execAddI (x : RegIdx) (s : State) : Outcome :=
  .next (State.act { s.setI (indexSum s.i (s.reg x)) with
    v := if s.fx1eSetsVf then (s.setFlag (indexOverflow s.i (s.reg x))).v else s.v } .advance)

/-- LD F, Vx (R141). -/
def execLdF (x : RegIdx) (s : State) : Outcome := .next ((s.setI (glyphAddr (s.reg x))).act .advance)

/-- LD B, Vx (R142). -/
def execLdB (x : RegIdx) (s : State) : Outcome := storeAtI (.ldB x) (bcdDigits (s.reg x)) s

/-- LD [I], Vx (R143). -/
def execLdMemVx (x : RegIdx) (s : State) : Outcome := storeAtI (.ldMemVx x) (s.regsUpTo x) s

/-- LD Vx, [I] (R144). -/
def execLdVxMem (x : RegIdx) (s : State) : Outcome :=
  match Memory.load s.mem s.dataAddr (x.val + 1) with
  | none => .next (s.raiseIn .memoryOutOfBounds (.ldVxMem x))
  | some bytes => .next (State.act { s with v := setRegsFrom s.v 0 bytes } .advance)

end Sys2Proof.Machine
end

