-- ==== Sys2Proof/Machine/KeypadTimers.lean ====
section
/-! DEFINITION. The meanings of spec/45_keypad_timers.md: key skips, the key wait, the timer transfers. -/

namespace Sys2Proof.Machine

/-- SKP Vx (R154); a key index above 15 is KeyIndexOutOfBounds (R152). -/
def execSkp (x : RegIdx) (s : State) : Outcome :=
  if (s.reg x).toNat > 15 then .next (s.raiseIn .keyIndexOutOfBounds (.skp x))
  else .next (s.act (skipIf (keyPressed s.key (s.reg x).toNat)))

/-- SKNP Vx (R155); a key index above 15 is KeyIndexOutOfBounds (R152). -/
def execSknp (x : RegIdx) (s : State) : Outcome :=
  if (s.reg x).toNat > 15 then .next (s.raiseIn .keyIndexOutOfBounds (.sknp x))
  else .next (s.act (skipIf (!keyPressed s.key (s.reg x).toNat)))

/-- LD Vx, K, the entering cycle (R156): clear the latch, wait, hold PC. The wait ends in Machine/Cycle.lean (R99). -/
def execLdVxK (x : RegIdx) (s : State) : Outcome :=
  .next (State.act { s with key := 0, mode := .awaitingKey x } .hold)

/-- LD Vx, DT (R157): `delay` before this cycle's tick (R108). -/
def execLdVxDt (x : RegIdx) (s : State) : Outcome := .next ((s.setReg x s.delay).act .advance)

/-- LD DT, Vx (R158): `t_ref` is not moved. -/
def execLdDtVx (x : RegIdx) (s : State) : Outcome := .next (State.act { s with delay := s.reg x } .advance)

/-- LD ST, Vx (R159): `t_ref` is not moved. -/
def execLdStVx (x : RegIdx) (s : State) : Outcome := .next (State.act { s with sound := s.reg x } .advance)

end Sys2Proof.Machine
end

