-- ==== Sys2Proof/Machine/Ports.lean ====
section
/-! DEFINITION. What the host does and sees between cycles (R48, R52 to R56). -/

namespace Sys2Proof.Machine

/-- One port write, between cycles (R52, R53): it changes only the latch or the dirty flag. -/
def State.portWrite (s : State) (w : PortWrite) : State :=
  { s with key := keyAfterWrite s.key w, dirty := dirtyAfterWrite s.dirty w }

/-- The latch after some port writes, first to last. -/
def keyAfterWrites (key : BitVec 16) (ws : List PortWrite) : BitVec 16 := ws.foldl keyAfterWrite key

/-- The dirty flag after some port writes, first to last. -/
def dirtyAfterWrites (dirty : Bool) (ws : List PortWrite) : Bool := ws.foldl dirtyAfterWrite dirty

/-- Output `sound_active` (R55). -/
def State.soundActive (s : State) : Bool := s.sound != 0

/-- Output `awaiting_key` (R56). -/
def State.awaitingKeyOut (s : State) : Bool :=
  match s.mode with
  | .running => false
  | .awaitingKey _ => true
  | .faulted _ => false

/-- Output `faulted` with its record (R56). -/
def State.faultedOut (s : State) : Option FatalRecord :=
  match s.mode with
  | .running => none
  | .awaitingKey _ => none
  | .faulted rec => some rec

/-- The number of a fatal error (R160, D13). -/
def FatalCode.number (c : FatalCode) : Nat :=
  match c with
  | .memoryOutOfBounds => 1
  | .stackOverflow => 2
  | .stackUnderflow => 3
  | .romTooLarge => 4
  | .keyIndexOutOfBounds => 5

/-- The number of the condition a status reports, if it reports one (R160, D13): UnsupportedOpcode is 6. -/
def CycleStatus.number (st : CycleStatus) : Option Nat :=
  match st with
  | .ok => none
  | .unsupported _ _ => some 6
  | .fatal rec => some rec.code.number

end Sys2Proof.Machine
end

