-- ==== Sys2Proof/Machine/Cycle.lean ====
section
/-! DEFINITION. The cycle (spec/40_cycle.md): the host's request, the mode check, fetch, decode, execute, the timer tick
and the results. -/

namespace Sys2Proof.Machine

/-! ## The host's request (R50, R52, R53, R58; log 1 to 4) -/

/-- The next request: the first one State holds, or free inputs with a `now` that does not decrease. -/
def State.nextRequest (s : State) : CycleRequest :=
  match s.requests with
  | r :: _ => r
  | [] => ⟨Config.freePortWrites s.cycles, s.now + Config.freeElapsed s.cycles, Config.freeRnd s.cycles⟩

/-- The state in which the engine starts the cycle: the host's port writes have taken effect (R52), the input ports are
sampled (R7), and `rnd_taken` is 0 (R97). -/
def State.beginCycle (s : State) : State :=
  { s with
    key := keyAfterWrites s.key s.nextRequest.writes
    dirty := dirtyAfterWrites s.dirty s.nextRequest.writes
    now := s.nextRequest.now
    rnd := s.nextRequest.rnd
    rndTaken := false
    requests := s.requests.tail
    cycles := s.cycles + 1 }

/-! ## The timer tick (R173) -/

/-- A tick is due: at least 1/60 s has passed since `t_ref`. -/
def State.tickDue (s : State) : Bool := decide (s.tRef ≤ s.now ∧ s.second ≤ 60 * (s.now - s.tRef))

/-- One decrement, with floor 0. -/
def countDown (t : Byte) : Byte := if t.toNat > 0 then BitVec.ofNat 8 (t.toNat - 1) else t

/-- `Tick(now)` (R173). -/
def State.tick (s : State) : State :=
  { s with
    delay := if s.tickDue then countDown s.delay else s.delay
    sound := if s.tickDue then countDown s.sound else s.sound
    tRef := if s.tickDue then s.now else s.tRef }

/-! ## The end of a cycle (R101, R175) -/

/-- The tick, then the results of a cycle that raised no fatal error; `s0` is `sound` at its start. -/
def State.endCycle (s : State) (s0 : Byte) (st : CycleStatus) : State :=
  { s.tick with
    status := some st
    toneComplete := decide (s0.toNat ≠ 0) && decide (s.tick.sound.toNat = 0) }

/-- The end of a cycle that executed an instruction: a fatal error has ended it already, with no tick (R163). -/
def State.afterExec (s : State) (s0 : Byte) : State :=
  match s.mode with
  | .faulted _ => s
  | .running => s.endCycle s0 .ok
  | .awaitingKey _ => s.endCycle s0 .ok

/-! ## The three paths of a cycle (R97) -/

/-- `Fetch(pc0)` (R102): big-endian (R67), no alignment check (R69); `none` where the second byte would be outside. -/
def State.fetch (s : State) : Option Word :=
  if inBounds s.pc.toNat 2 then
    some (Memory.byteAt s.mem s.pc.toNat ++ Memory.byteAt s.mem (s.pc.toNat + 1))
  else none

/-- The key wait of R99 resolves if a key is pressed, and else holds. -/
def State.checkKeys (s : State) (x : RegIdx) : State :=
  { s with
    v := match lowestPressed s.key with
      | some k => (s.setReg x (BitVec.ofNat 8 k)).v
      | none => s.v
    pc := match lowestPressed s.key with
      | some _ => s.pc + 2
      | none => s.pc
    mode := match lowestPressed s.key with
      | some _ => .running
      | none => s.mode }

/-- A Running cycle after its fetch (R100, R107). -/
def State.runWord (s : State) (op : Word) : Outcome :=
  match decodeWord op with
  | .error _ => .next ((s.act .advance).endCycle s.sound (.unsupported op s.pc))
  | .ok i =>
    match exec i s with
    | .next t => .next (t.afterExec s.sound)
    | .fault r => .fault r
    | .refused r => .refused r

/-- The cycle from the state in which the engine starts it (R97 to R100). -/
def State.runCycle (s : State) : Outcome :=
  match s.mode with
  | .faulted rec => .next (s.reportFatal rec)
  | .awaitingKey x => .next ((s.checkKeys x).endCycle s.sound .ok)
  | .running =>
    match s.fetch with
    | none => .next (s.raise .memoryOutOfBounds none)
    | some op => s.runWord op

/-! ## Placing an instruction (for the host's probe; log 11) -/

/-- `s` with the word stored where the next cycle fetches: at PC, or at the program's entry where PC is past the last
word; a block that waits or has stopped is set running. -/
def State.placeWord (s : State) (op : Word) : State :=
  let pc := if inBounds s.pc.toNat 2 then s.pc else BitVec.ofNat 16 Config.progStart
  { s with mem := Memory.setBytes s.mem pc.toNat (bytesOfWord op), pc := pc, mode := .running }

end Sys2Proof.Machine
end

