-- ==== Sys2Proof/Machine/Step.lean ====
section
/-! DEFINITION. The block's only step is the cycle (R96). -/

namespace Sys2Proof.Machine

/-- One cycle: the host's request takes effect, then the engine runs (R57, R96). -/
def step (s : State) : Host.Outcome State Fault Refusal := s.beginCycle.runCycle

/-- `s` with the word `w` of `nbits` bits stored where `step` fetches its next instruction (log 11). -/
def State.withFetchWord (s : State) (nbits w : Nat) : State := s.placeWord (BitVec.ofNat 16 (w % 2 ^ nbits))

end Sys2Proof.Machine
end

