-- ==== Sys2Proof/Machine/Construct.lean ====
section
/-! DEFINITION. Construction, the block's only reset (R49, R181 to R185). -/

namespace Sys2Proof.Machine

/-- What the host supplies: `font`, `rom`, `now0` (R49) and the open parameters of R8. -/
structure ConstructArgs where
  font : Vector Byte Config.fontSize
  rom : List Byte
  now0 : Nat
  second : Nat
  fx1eSetsVf : Bool
deriving DecidableEq, Repr

/-- The arguments of `State.reset`: the default font (R185), an empty ROM (R184), time 0 and the parameters State.reset
names (log 5, 6, 7, 8, 11). -/
def defaultArgs : ConstructArgs where
  font := ⟨Config.defaultFont.toArray, by decide⟩
  rom := []
  now0 := 0
  second := 1000000
  fx1eSetsVf := false

/-- The result of `Construct` (R181, R183). -/
inductive ConstructResult where
  | ok
  | fatal (rec : FatalRecord)
deriving DecidableEq, Repr

/-- The record of RomTooLarge (R162, R183). -/
def romTooLargeRecord : FatalRecord := ⟨.romTooLarge, none, none⟩

/-- Memory after steps 1 and 2 of R181: 0x00 everywhere, then the font. -/
def fontMemory (font : Vector Byte Config.fontSize) : Memory := Memory.setBytes [] 0 font.toList

/-- Everything zero, PC at the entry, the font in memory, `t_ref` = `now0` (R181 steps 1, 2 and 5). -/
def blankState (a : ConstructArgs) : State :=
  { State.reset with mem := fontMemory a.font, tRef := a.now0, now := a.now0, second := a.second,
                     fx1eSetsVf := a.fx1eSetsVf }

/-- `Construct(font, rom, now0)` (R181): the ROM is checked before it is copied, and never truncated (R183). -/
def construct (a : ConstructArgs) : State × ConstructResult :=
  if a.rom.length > Config.maxRom then
    ({ blankState a with mode := .faulted romTooLargeRecord }, .fatal romTooLargeRecord)
  else
    ({ blankState a with mem := Memory.setBytes (fontMemory a.font) Config.progStart a.rom }, .ok)

end Sys2Proof.Machine
end

