-- ==== Sys2Proof/Safety.lean ====
section
/-! DEFINITION. The terms the statements are written in: safe states, the invariant of a run, frames, and what it means
that an instruction completes with an effect. -/

namespace Sys2Proof.Machine

/-! ## Safe states and the invariant -/

/-- No fatal error has been taken (R166). -/
def State.Safe (s : State) : Prop := ∀ rec, s.mode ≠ .faulted rec

/-- What holds in every state a run reaches. -/
structure State.Inv (s : State) : Prop where
  /-- Memory is in its canonical form. -/
  mem_wf : Memory.wf s.mem = true
  /-- I is always in 0x000..0xFFF (R23). -/
  i_bound : s.i.toNat ≤ 0xFFF
  /-- PC never exceeds 0x10FE (R25). -/
  pc_bound : s.pc.toNat ≤ 0x10FE
  /-- A return address is at most 0x1000 (R25). -/
  stack_bound : ∀ j : Fin Config.stackCapacity, (s.stack[j.val]).toNat ≤ 0x1000
  /-- In the key wait PC is at the Fx0A, which was fetched (R24, R102). -/
  wait_pc : ∀ x, s.mode = .awaitingKey x → s.pc.toNat ≤ 0xFFE
  /-- A reported fatal error is the one the engine stopped with (R163, R166). -/
  fatal_mode : ∀ rec, s.status = some (.fatal rec) → s.mode = .faulted rec

/-! ## Frames -/

/-- Every byte of memory reads as before. -/
def SameMemory (s t : State) : Prop := ∀ a, Memory.byteAt t.mem a = Memory.byteAt s.mem a

/-- Every byte outside the `m` bytes at `a` reads as before. -/
def SameMemoryOutside (a m : Nat) (s t : State) : Prop :=
  ∀ b, b < a ∨ a + m ≤ b → Memory.byteAt t.mem b = Memory.byteAt s.mem b

/-! ## Effects

Each says that `exec i s` answers a next state, what that state holds, and that the rest of State is unchanged. -/

/-- The V registers become `val`, PC advances, and nothing else changes. -/
def WritesRegs (i : Instr) (s : State) (val : RegIdx → Byte) : Prop :=
  ∃ t, exec i s = .next t ∧ (∀ r, t.reg r = val r) ∧ t.pc = s.pc + 2 ∧
    t = { s with v := t.v, pc := t.pc } ∧ SameMemory s t

/-- PC becomes `target`, and nothing else changes. -/
def GoesTo (i : Instr) (s : State) (target : Word) : Prop :=
  ∃ t, exec i s = .next t ∧ t.pc = target ∧ t = { s with pc := t.pc } ∧ SameMemory s t

/-- The fatal error `code` is taken with the record (code, opcode, PC): the engine stops, the results say so, and nothing
else changes (R163, R164). -/
def TakesFatal (i : Instr) (s : State) (code : FatalCode) : Prop :=
  exec i s = .next { s with
    mode := .faulted ⟨code, some (encode i), some s.pc⟩
    status := some (.fatal ⟨code, some (encode i), some s.pc⟩)
    toneComplete := false
    rndTaken := false }

/-! ## Sprites (R145, R146) -/

/-- Pixel `(row, col)` is under a 1 bit of the sprite of `n` rows at address `a`, drawn from column `x0` and row `y0`:
bit `7 - j` of byte `r` is at column `(x0 + j) mod 64`, row `(y0 + r) mod 32`. -/
def UnderSprite (mem : Memory) (a n : Nat) (x0 y0 : Byte) (row : Fin Config.displayH) (col : Fin Config.displayW) :
    Prop :=
  ∃ r j, r < n ∧ j < 8 ∧ (Memory.byteAt mem (a + r)).getLsbD (7 - j) = true ∧
    row.val = (y0.toNat + r) % 32 ∧ col.val = (x0.toNat + j) % 64

/-! ## Kinds of instruction -/

/-- The instructions that write VF as a flag (R21). -/
def writesFlag (i : Instr) (fx1eSetsVf : Bool) : Prop :=
  (∃ x y, i = .addReg x y) ∨ (∃ x y, i = .sub x y) ∨ (∃ x y, i = .shr x y) ∨ (∃ x y, i = .subn x y) ∨
    (∃ x y, i = .shl x y) ∨ (∃ x y n, i = .drw x y n) ∨ (fx1eSetsVf = true ∧ ∃ x, i = .addI x)

/-- The instructions whose destination is `Vx` for an `x` of theirs, or the range V0..Vx (R22). -/
def hasDest (i : Instr) (x : RegIdx) : Prop :=
  (∃ kk, i = .ldImm x kk) ∨ (∃ kk, i = .addImm x kk) ∨ (∃ y, i = .ldReg x y) ∨ (∃ y, i = .orReg x y) ∨
    (∃ y, i = .andReg x y) ∨ (∃ y, i = .xorReg x y) ∨ (∃ kk, i = .rnd x kk) ∨ i = .ldVxDt x ∨ i = .ldVxMem x

/-- The instructions that may return `Skip` (R105). -/
def maySkip (i : Instr) : Prop :=
  (∃ x kk, i = .seImm x kk) ∨ (∃ x kk, i = .sneImm x kk) ∨ (∃ x y, i = .seReg x y) ∨ (∃ x y, i = .sneReg x y) ∨
    (∃ x, i = .skp x) ∨ (∃ x, i = .sknp x)

/-- The instructions that return `Set(t)` (R104). -/
def setsPc (i : Instr) : Prop :=
  i = .ret ∨ (∃ nnn, i = .jp nnn) ∨ (∃ nnn, i = .call nnn) ∨ (∃ nnn, i = .jpV0 nnn)

/-- The words that match no pattern, as R92 lists them. -/
def UnsupportedWord (op : Word) : Prop :=
  (op.toNat ≤ 0x0FFF ∧ op ≠ 0x00E0 ∧ op ≠ 0x00EE) ∨
    (op.toNat / 4096 = 5 ∧ op.toNat % 16 ≠ 0) ∨
    (op.toNat / 4096 = 8 ∧ (8 ≤ op.toNat % 16 ∧ op.toNat % 16 ≤ 13 ∨ op.toNat % 16 = 15)) ∨
    (op.toNat / 4096 = 9 ∧ op.toNat % 16 ≠ 0) ∨
    (op.toNat / 4096 = 14 ∧ op.toNat % 256 ≠ 0x9E ∧ op.toNat % 256 ≠ 0xA1) ∨
    (op.toNat / 4096 = 15 ∧ op.toNat % 256 ∉ [0x07, 0x0A, 0x15, 0x18, 0x1E, 0x29, 0x33, 0x55, 0x65])

/-- The ticks of cycles at the given values of `now`, one after another. -/
def ticksAt (s : State) (nows : List Nat) : State := nows.foldl (fun t n => State.tick { t with now := n }) s

end Sys2Proof.Machine
end

