-- ==== Sys2Proof/Certificates/Slice0/Obligations.lean ====
section
/-! DEFINITION. The statements for the provers. An instruction's statement gives its encoding, its next state, and its
frame: `t = { s with … }` says that every field of State not named is unchanged, and memory is said byte by byte too. -/

open Sys2Proof Sys2Proof.Machine

/-! ## Encoding (spec/30_encoding.md) -/

/-- Words written out from the spec's examples decode to the instructions they stand for (30_encoding.md section 3; the
examples of 95_test_vectors.md). -/
def Obligations.SpecWordsDecode : Prop :=
  decodeWord 0x00E0 = .ok .cls ∧ decodeWord 0x00EE = .ok .ret ∧ decodeWord 0x1234 = .ok (.jp 0x234) ∧
  decodeWord 0x3142 = .ok (.seImm 1 0x42) ∧ decodeWord 0x6A2B = .ok (.ldImm 10 0x2B) ∧
  decodeWord 0x8F14 = .ok (.addReg 15 1) ∧ decodeWord 0x812E = .ok (.shl 1 2) ∧
  decodeWord 0xA2F0 = .ok (.ldI 0x2F0) ∧ decodeWord 0xD012 = .ok (.drw 0 1 2) ∧
  decodeWord 0xE1A1 = .ok (.sknp 1) ∧ decodeWord 0xF30A = .ok (.ldVxK 3) ∧ decodeWord 0xF533 = .ok (.ldB 5) ∧
  decodeWord 0x5121 = .error (.unsupported 0x5121) ∧ decodeWord 0x0123 = .error (.unsupported 0x0123)

/-- Every well-formed instruction, stored as its two bytes and followed by anything, decodes to itself. -/
def Obligations.DecodeOfEncodeIsIdentity : Prop :=
  ∀ (i : Instr) (rest : List Byte), i.WellFormed → decode (bytesOfWord (encode i) ++ rest) = .ok (i, rest)

/-- A word that decodes is the encoding of the one instruction it decodes to, with no bit dropped, and that instruction
is well-formed: a word matches at most one pattern. -/
def Obligations.EncodeOfDecodeIsIdentity : Prop :=
  ∀ (op : Word) (i : Instr), decodeWord op = .ok i → encode i = op ∧ i.WellFormed

/-- Exactly the words of R92's list are unsupported. -/
def Obligations.UnsupportedWordsAreThoseListed : Prop :=
  ∀ (op : Word) (e : DecodeError), decodeWord op = .error e ↔ e = .unsupported op ∧ UnsupportedWord op

/-! ## Construction (spec/70_reset_and_hazards.md, spec/10_state.md) -/

/-- Whatever the font, ROM and time, construction leaves the registers, I, SP, the stack and the timers 0, PC at 0x200
and the framebuffer clear. The values of `dirty`, the keypad, the mode and `t_ref` are the spec's decisions D20, D21,
D12 and D2, and are in `ConstructionFixesTheRest`. -/
def Obligations.ConstructionClearsRegistersAndDisplay : Prop :=
  ∀ a : ConstructArgs,
    (∀ r, (construct a).1.reg r = 0) ∧ (construct a).1.i = 0 ∧ (construct a).1.sp.val = 0 ∧
    (∀ j : Fin Config.stackCapacity, (construct a).1.stack[j.val] = 0) ∧
    (construct a).1.delay = 0 ∧ (construct a).1.sound = 0 ∧ (construct a).1.pc = 512 ∧
    ∀ row col, (construct a).1.pixel row col = false

/-- Construction leaves `dirty` and every key 0 (D20, D21), `t_ref` at `now0` (D2), no tone complete and no status (R47),
and the mode Running where it succeeds (D12). That `rnd_taken` is 0 is the model's reading of R47's idle values
(log 10). -/
def Obligations.ConstructionFixesTheRest : Prop :=
  ∀ a : ConstructArgs,
    (construct a).1.dirty = false ∧ (∀ k : KeyIdx, keyPressed (construct a).1.key k.val = false) ∧
    (construct a).1.tRef = a.now0 ∧ (construct a).1.toneComplete = false ∧ (construct a).1.rndTaken = false ∧
    (construct a).1.status = none ∧ (construct a).1.soundActive = false ∧
    (construct a).1.fx1eSetsVf = a.fx1eSetsVf ∧ (construct a).1.second = a.second ∧
    (a.rom.length ≤ 3584 → (construct a).1.mode = .running ∧ (construct a).2 = .ok)

/-- After construction with a ROM that fits, memory holds the font at 0x000..0x04F, the ROM bytes from 0x200, and 0x00 in
every other byte (R46; the fill is the spec's decision D22), in the model's canonical form. -/
def Obligations.ConstructionLoadsFontAndRom : Prop :=
  ∀ a : ConstructArgs, a.rom.length ≤ 3584 →
    Memory.wf (construct a).1.mem = true ∧
    (∀ k : Fin 80, Memory.byteAt (construct a).1.mem k.val = a.font[k.val]) ∧
    (∀ k (h : k < a.rom.length), Memory.byteAt (construct a).1.mem (0x200 + k) = a.rom[k]) ∧
    ∀ b, 80 ≤ b → b < 4096 → ¬ (0x200 ≤ b ∧ b < 0x200 + a.rom.length) → Memory.byteAt (construct a).1.mem b = 0

/-- A ROM longer than 3584 bytes is rejected: no byte of it is copied, the block is Faulted with RomTooLarge and no
opcode or PC, and the result says so (R183, the spec's decision D36). -/
def Obligations.ConstructionRejectsALongRom : Prop :=
  ∀ a : ConstructArgs, 3584 < a.rom.length →
    (construct a).2 = .fatal ⟨.romTooLarge, none, none⟩ ∧
    (construct a).1.mode = .faulted ⟨.romTooLarge, none, none⟩ ∧ (construct a).1.tRef = a.now0 ∧
    Memory.wf (construct a).1.mem = true ∧
    (∀ k : Fin 80, Memory.byteAt (construct a).1.mem k.val = a.font[k.val]) ∧
    ∀ b, 80 ≤ b → b < 4096 → Memory.byteAt (construct a).1.mem b = 0

/-- The model's State.reset is construction with the default font, an empty ROM and time 0: the model's choice of
arguments (log 5, 6, 7, 8, 11). -/
def Obligations.ResetIsADefaultConstruction : Prop := construct defaultArgs = (State.reset, .ok)

/-! ## Loads, arithmetic, logic, shifts, random (spec/42_alu.md) -/

/-- LD Vx, kk and LD Vx, Vy (R125, R127). -/
def Obligations.LoadsWriteVx : Prop :=
  ∀ (s : State) (x y : RegIdx) (kk : Byte),
    decodeWord (formatXKK 0x6 x kk) = .ok (.ldImm x kk) ∧
    WritesRegs (.ldImm x kk) s (fun r => if r = x then kk else s.reg r) ∧
    decodeWord (formatXYN 0x8 x y 0x0) = .ok (.ldReg x y) ∧
    WritesRegs (.ldReg x y) s (fun r => if r = x then s.reg y else s.reg r)

/-- ADD Vx, kk (R126): modulo 256, no flag. -/
def Obligations.AddImmediateWrapsWithoutFlag : Prop :=
  ∀ (s : State) (x : RegIdx) (kk : Byte),
    decodeWord (formatXKK 0x7 x kk) = .ok (.addImm x kk) ∧
    WritesRegs (.addImm x kk) s
      (fun r => if r = x then BitVec.ofNat 8 (((s.reg x).toNat + kk.toNat) % 256) else s.reg r)

/-- AND and XOR (R129, R130): VF keeps its value unless x = F. -/
def Obligations.AndXorWriteVx : Prop :=
  ∀ (s : State) (x y : RegIdx),
    decodeWord (formatXYN 0x8 x y 0x2) = .ok (.andReg x y) ∧
    WritesRegs (.andReg x y) s (fun r => if r = x then s.reg x &&& s.reg y else s.reg r) ∧
    decodeWord (formatXYN 0x8 x y 0x3) = .ok (.xorReg x y) ∧
    WritesRegs (.xorReg x y) s (fun r => if r = x then s.reg x ^^^ s.reg y else s.reg r)

/-- OR (R128): that VF keeps its value unless x = F is the spec's decision D7. -/
def Obligations.OrWritesVx : Prop :=
  ∀ (s : State) (x y : RegIdx),
    decodeWord (formatXYN 0x8 x y 0x1) = .ok (.orReg x y) ∧
    WritesRegs (.orReg x y) s (fun r => if r = x then s.reg x ||| s.reg y else s.reg r)

/-- ADD Vx, Vy (R131): the sum modulo 256, and VF = 1 iff it exceeds 255. That VF is written last, so that with x = F it
is the carry, is the spec's decision D7 (R122). -/
def Obligations.AddRegistersSetsCarry : Prop :=
  ∀ (s : State) (x y : RegIdx),
    decodeWord (formatXYN 0x8 x y 0x4) = .ok (.addReg x y) ∧
    WritesRegs (.addReg x y) s (fun r =>
      if r = 15 then (if (s.reg x).toNat + (s.reg y).toNat > 255 then 1 else 0)
      else if r = x then BitVec.ofNat 8 (((s.reg x).toNat + (s.reg y).toNat) % 256) else s.reg r)

/-- SUB and SUBN (R132, R134): the difference modulo 256, and VF = 1 iff there is no borrow, written last (the spec's
decision D7, R122). -/
def Obligations.SubtractionsSetNoBorrow : Prop :=
  ∀ (s : State) (x y : RegIdx),
    decodeWord (formatXYN 0x8 x y 0x5) = .ok (.sub x y) ∧
    WritesRegs (.sub x y) s (fun r =>
      if r = 15 then (if (s.reg x).toNat ≥ (s.reg y).toNat then 1 else 0)
      else if r = x then s.reg x - s.reg y else s.reg r) ∧
    decodeWord (formatXYN 0x8 x y 0x7) = .ok (.subn x y) ∧
    WritesRegs (.subn x y) s (fun r =>
      if r = 15 then (if (s.reg y).toNat ≥ (s.reg x).toNat then 1 else 0)
      else if r = x then s.reg y - s.reg x else s.reg r)

/-- SHR and SHL (R133, R135): Vy is ignored, VF is the bit shifted out, as 0 or 1, written last (the spec's decision D7,
R122). -/
def Obligations.ShiftsSetShiftedOutBit : Prop :=
  ∀ (s : State) (x y : RegIdx),
    decodeWord (formatXYN 0x8 x y 0x6) = .ok (.shr x y) ∧
    WritesRegs (.shr x y) s (fun r =>
      if r = 15 then (if (s.reg x).getLsbD 0 then 1 else 0) else if r = x then s.reg x >>> 1 else s.reg r) ∧
    decodeWord (formatXYN 0x8 x y 0xE) = .ok (.shl x y) ∧
    WritesRegs (.shl x y) s (fun r =>
      if r = 15 then (if (s.reg x).getLsbD 7 then 1 else 0) else if r = x then s.reg x <<< 1 else s.reg r)

/-- RND Vx, kk (R136), for every byte the source may offer (the spec's decision D27): the byte is taken, and masked. -/
def Obligations.RandomTakesAndMasksTheByte : Prop :=
  ∀ (s : State) (x : RegIdx) (kk : Byte),
    decodeWord (formatXKK 0xC x kk) = .ok (.rnd x kk) ∧
    ∃ t, exec (.rnd x kk) s = .next t ∧ t.reg x = s.rnd &&& kk ∧ (∀ r, r ≠ x → t.reg r = s.reg r) ∧
      t.rndTaken = true ∧ t.pc = s.pc + 2 ∧ t = { s with v := t.v, rndTaken := t.rndTaken, pc := t.pc } ∧
      SameMemory s t

/-! ## Control transfer (spec/41_control.md) -/

/-- JP nnn and JP V0, nnn (R114, R120): the target is zext(nnn), or zext(nnn) + V0 not masked. -/
def Obligations.JumpsSetPc : Prop :=
  ∀ (s : State) (nnn : BitVec 12),
    decodeWord (formatNNN 0x1 nnn) = .ok (.jp nnn) ∧ GoesTo (.jp nnn) s (nnn.setWidth 16) ∧
    decodeWord (formatNNN 0xB nnn) = .ok (.jpV0 nnn) ∧
    GoesTo (.jpV0 nnn) s (BitVec.ofNat 16 (nnn.toNat + (s.reg 0).toNat)) ∧ nnn.toNat + (s.reg 0).toNat ≤ 0x10FE

/-- The four register skips (R116 to R119): PC + 4 where the condition holds, PC + 2 where it does not; a word 5xyN or
9xyN with N not 0 is unsupported. -/
def Obligations.RegisterSkipsFollowTheirCondition : Prop :=
  ∀ (s : State) (x y : RegIdx) (kk : Byte),
    decodeWord (formatXKK 0x3 x kk) = .ok (.seImm x kk) ∧
    GoesTo (.seImm x kk) s (if s.reg x = kk then s.pc + 4 else s.pc + 2) ∧
    decodeWord (formatXKK 0x4 x kk) = .ok (.sneImm x kk) ∧
    GoesTo (.sneImm x kk) s (if s.reg x = kk then s.pc + 2 else s.pc + 4) ∧
    decodeWord (formatXYN 0x5 x y 0x0) = .ok (.seReg x y) ∧
    GoesTo (.seReg x y) s (if s.reg x = s.reg y then s.pc + 4 else s.pc + 2) ∧
    decodeWord (formatXYN 0x9 x y 0x0) = .ok (.sneReg x y) ∧
    GoesTo (.sneReg x y) s (if s.reg x = s.reg y then s.pc + 2 else s.pc + 4) ∧
    ∀ n : BitVec 4, n ≠ 0 →
      decodeWord (formatXYN 0x5 x y n) = .error (.unsupported (formatXYN 0x5 x y n)) ∧
      decodeWord (formatXYN 0x9 x y n) = .error (.unsupported (formatXYN 0x9 x y n))

/-- CALL nnn (R115): the address after the CALL is pushed (D4) at STACK[SP] (D3), no other slot changes; on a full stack
the instruction is StackOverflow and changes nothing. -/
def Obligations.CallPushesTheReturnAddress : Prop :=
  ∀ (s : State) (nnn : BitVec 12),
    decodeWord (formatNNN 0x2 nnn) = .ok (.call nnn) ∧
    (s.sp.val < 16 → ∃ t, exec (.call nnn) s = .next t ∧ t.sp.val = s.sp.val + 1 ∧ t.pc = nnn.setWidth 16 ∧
      (∀ j : Fin Config.stackCapacity, t.stack[j.val] = if j.val = s.sp.val then s.pc + 2 else s.stack[j.val]) ∧
      t = { s with stack := t.stack, sp := t.sp, pc := t.pc } ∧ SameMemory s t) ∧
    (s.sp.val = 16 → TakesFatal (.call nnn) s .stackOverflow)

/-- RET (R113): PC becomes the popped return address; on an empty stack the instruction is StackUnderflow and changes
nothing. That the popped entry is STACK[SP - 1] is the spec's decision D3 on Pop. -/
def Obligations.RetPopsTheReturnAddress : Prop :=
  ∀ s : State,
    decodeWord 0x00EE = .ok .ret ∧
    (∀ j : Fin Config.stackCapacity, s.sp.val = j.val + 1 →
      ∃ t, exec .ret s = .next t ∧ t.pc = s.stack[j.val] ∧ t.sp.val = j.val ∧
        t = { s with sp := t.sp, pc := t.pc } ∧ SameMemory s t) ∧
    (s.sp.val = 0 → TakesFatal .ret s .stackUnderflow)

/-- A CALL, then a RET in any later state with the same stack and SP, continues at the instruction after the CALL and has
given the stack its depth back (R113, R115 and the worked example W6). -/
def Obligations.RetReturnsPastTheCall : Prop :=
  ∀ (s t u : State) (nnn : BitVec 12), s.sp.val < 16 → exec (.call nnn) s = .next t →
    u.stack = t.stack → u.sp = t.sp →
    ∃ w, exec .ret u = .next w ∧ w.pc = s.pc + 2 ∧ w.sp = s.sp ∧ w = { u with pc := w.pc, sp := w.sp }

/-- The PC of an instruction that raises no fatal error (R103 to R106): it advances by 2, but for a taken skip (4), the
jumps, and Fx0A (held). -/
def Obligations.PcFollowsTheInstructionKind : Prop :=
  ∀ (i : Instr) (s t : State), exec i s = .next t → s.Safe → t.Safe →
    (setsPc i ∨ (maySkip i ∧ (t.pc = s.pc + 4 ∨ t.pc = s.pc + 2)) ∨ ((∃ x, i = .ldVxK x) ∧ t.pc = s.pc) ∨
      t.pc = s.pc + 2)

/-! ## Index register and memory transfer (spec/43_index_memory.md) -/

/-- LD I, nnn (R139). -/
def Obligations.LoadIndexSetsI : Prop :=
  ∀ (s : State) (nnn : BitVec 12),
    decodeWord (formatNNN 0xA nnn) = .ok (.ldI nnn) ∧
    ∃ t, exec (.ldI nnn) s = .next t ∧ t.i = nnn.setWidth 16 ∧ t.pc = s.pc + 2 ∧
      t = { s with i := t.i, pc := t.pc } ∧ SameMemory s t

/-- ADD I, Vx (R140): I + Vx modulo 4096; VF is written only with FX1E_SETS_VF, as the overflow (the spec's decision
D28), for either value of the switch. -/
def Obligations.AddToIndexWraps : Prop :=
  ∀ (s : State) (x : RegIdx),
    decodeWord (formatXKK 0xF x 0x1E) = .ok (.addI x) ∧
    ∃ t, exec (.addI x) s = .next t ∧ t.i.toNat = (s.i.toNat + (s.reg x).toNat) % 4096 ∧
      (∀ r, t.reg r = if s.fx1eSetsVf = true ∧ r = 15 then
        (if s.i.toNat + (s.reg x).toNat > 0xFFF then 1 else 0) else s.reg r) ∧
      t.pc = s.pc + 2 ∧ t = { s with i := t.i, v := t.v, pc := t.pc } ∧ SameMemory s t

/-- LD F, Vx (R141): I = 5 · Vx, the full value of Vx (the spec's decision D30). -/
def Obligations.GlyphLoadSetsI : Prop :=
  ∀ (s : State) (x : RegIdx),
    decodeWord (formatXKK 0xF x 0x29) = .ok (.ldF x) ∧
    ∃ t, exec (.ldF x) s = .next t ∧ t.i.toNat = 5 * (s.reg x).toNat ∧ t.pc = s.pc + 2 ∧
      t = { s with i := t.i, pc := t.pc } ∧ SameMemory s t

/-- LD B, Vx (R142): hundreds, tens and ones at I, I+1, I+2, every other byte as before; I > 0xFFD is
MemoryOutOfBounds and writes nothing (the check of the whole access is R65's, the spec's decision D11). -/
def Obligations.BcdStoresThreeDigits : Prop :=
  ∀ (s : State) (x : RegIdx), Memory.wf s.mem = true →
    decodeWord (formatXKK 0xF x 0x33) = .ok (.ldB x) ∧
    (∀ a, s.dataAddr = a → a ≤ 0xFFD → ∃ t, exec (.ldB x) s = .next t ∧
      (Memory.byteAt t.mem a).toNat = (s.reg x).toNat / 100 ∧
      (Memory.byteAt t.mem (a + 1)).toNat = (s.reg x).toNat / 10 % 10 ∧
      (Memory.byteAt t.mem (a + 2)).toNat = (s.reg x).toNat % 10 ∧
      SameMemoryOutside a 3 s t ∧ t.pc = s.pc + 2 ∧ t = { s with mem := t.mem, pc := t.pc }) ∧
    (s.i.toNat > 0xFFD → TakesFatal (.ldB x) s .memoryOutOfBounds)

/-- LD [I], Vx (R143): V0..Vx at I..I+x, every other byte as before; I + x > 0xFFF is MemoryOutOfBounds and writes
nothing (R65, the spec's decision D11). -/
def Obligations.StoreWritesV0ToVx : Prop :=
  ∀ (s : State) (x : RegIdx), Memory.wf s.mem = true →
    decodeWord (formatXKK 0xF x 0x55) = .ok (.ldMemVx x) ∧
    (∀ a, s.dataAddr = a → a + x.val ≤ 0xFFF → ∃ t, exec (.ldMemVx x) s = .next t ∧
      (∀ r : RegIdx, r.val ≤ x.val → Memory.byteAt t.mem (a + r.val) = s.reg r) ∧
      SameMemoryOutside a (x.val + 1) s t ∧ t.pc = s.pc + 2 ∧ t = { s with mem := t.mem, pc := t.pc }) ∧
    (s.i.toNat + x.val > 0xFFF → TakesFatal (.ldMemVx x) s .memoryOutOfBounds)

/-- LD Vx, [I] (R144): V0..Vx from I..I+x, the registers above x and I unchanged; I + x > 0xFFF is MemoryOutOfBounds
and changes no register (R65, the spec's decision D11). -/
def Obligations.LoadReadsV0ToVx : Prop :=
  ∀ (s : State) (x : RegIdx),
    decodeWord (formatXKK 0xF x 0x65) = .ok (.ldVxMem x) ∧
    (s.i.toNat + x.val ≤ 0xFFF → WritesRegs (.ldVxMem x) s
      (fun r => if r.val ≤ x.val then Memory.byteAt s.mem (s.i.toNat + r.val) else s.reg r)) ∧
    (s.i.toNat + x.val > 0xFFF → TakesFatal (.ldVxMem x) s .memoryOutOfBounds)

/-- An Fx55, then an Fx65 with the same x in any later state with the same memory and I, gives V0..Vx back the values
they had (the corner case of R144, the worked example W7). -/
def Obligations.LoadRestoresWhatStoreSaved : Prop :=
  ∀ (s t u : State) (x : RegIdx), Memory.wf s.mem = true → s.i.toNat + x.val ≤ 0xFFF →
    exec (.ldMemVx x) s = .next t → u.mem = t.mem → u.i = t.i →
    ∃ w, exec (.ldVxMem x) u = .next w ∧ (∀ r : RegIdx, r.val ≤ x.val → w.reg r = s.reg r) ∧
      ∀ r : RegIdx, x.val < r.val → w.reg r = u.reg r

/-- Self-modifying code (R78, R189): two bytes an Fx55 stores where the next instruction stands are what the next cycle
fetches, high byte first (R67). -/
def Obligations.StoredWordIsFetchedNext : Prop :=
  ∀ (s t : State) (x : RegIdx), Memory.wf s.mem = true → 1 ≤ x.val → s.i = s.pc + 2 → s.pc.toNat ≤ 0xFFC →
    s.i.toNat + x.val ≤ 0xFFF → exec (.ldMemVx x) s = .next t →
    t.fetch = some (s.reg 0 ++ s.reg 1)

/-! ## Framebuffer (spec/44_display.md) -/

/-- CLS (R150): every pixel 0, `dirty` 1, VF unchanged. -/
def Obligations.ClearScreenClearsEveryPixel : Prop :=
  ∀ s : State,
    decodeWord 0x00E0 = .ok .cls ∧
    ∃ t, exec .cls s = .next t ∧ (∀ row col, t.pixel row col = false) ∧ t.dirty = true ∧ t.pc = s.pc + 2 ∧
      t = { s with fb := t.fb, dirty := t.dirty, pc := t.pc } ∧ SameMemory s t

/-- DRW Vx, Vy, n (R151, with the spec's decisions D7, D17 to D19 and D31): the pixels under a 1 bit turn over, wrapped
on both axes, the others stay; VF = 1 iff one of those pixels was 1; `dirty` is set. A sprite past 0xFFF is
MemoryOutOfBounds and changes nothing; n = 0 reads nothing. -/
def Obligations.DrawXorsTheSprite : Prop :=
  ∀ (s : State) (x y : RegIdx) (n : Nat), n ≤ 15 →
    decodeWord (formatXYN 0xD x y (BitVec.ofNat 4 n)) = .ok (.drw x y n) ∧
    (n = 0 ∨ s.i.toNat + n - 1 ≤ 0xFFF → ∃ t, exec (.drw x y n) s = .next t ∧
      (∀ row col, UnderSprite s.mem s.i.toNat n (s.reg x) (s.reg y) row col →
        t.pixel row col = !(s.pixel row col)) ∧
      (∀ row col, ¬ UnderSprite s.mem s.i.toNat n (s.reg x) (s.reg y) row col → t.pixel row col = s.pixel row col) ∧
      ((∃ row col, UnderSprite s.mem s.i.toNat n (s.reg x) (s.reg y) row col ∧ s.pixel row col = true) →
        t.reg 15 = 1) ∧
      ((¬ ∃ row col, UnderSprite s.mem s.i.toNat n (s.reg x) (s.reg y) row col ∧ s.pixel row col = true) →
        t.reg 15 = 0) ∧
      (∀ r, r ≠ 15 → t.reg r = s.reg r) ∧ t.dirty = true ∧ t.pc = s.pc + 2 ∧
      t = { s with v := t.v, fb := t.fb, dirty := t.dirty, pc := t.pc } ∧ SameMemory s t) ∧
    (1 ≤ n ∧ s.i.toNat + n - 1 > 0xFFF → TakesFatal (.drw x y n) s .memoryOutOfBounds)

/-- R147 (which the spec derives from R146): within one DRW every sprite bit lands on its own pixel, the pixels under 1
bits, listed, have no repeats, so that each is toggled at most once, and applying the toggles in any order gives the
framebuffer and the collision flag of the instruction. -/
def Obligations.SpriteBitsLandOnDistinctPixels : Prop :=
  ∀ (s : State) (x y : RegIdx) (n : Nat), n ≤ 15 → (n = 0 ∨ s.i.toNat + n - 1 ≤ 0xFFF) →
    (∀ r q j k, r < n → q < n → j < 8 → k < 8 →
      ((s.reg y).toNat + r) % 32 = ((s.reg y).toNat + q) % 32 →
      ((s.reg x).toNat + j) % 64 = ((s.reg x).toNat + k) % 64 → r = q ∧ j = k) ∧
    (spritePixels (s.reg x) (s.reg y) 0 (Memory.bytesFrom s.mem s.dataAddr n)).Nodup ∧
    (∀ row col, (row, col) ∈ spritePixels (s.reg x) (s.reg y) 0 (Memory.bytesFrom s.mem s.dataAddr n) ↔
      UnderSprite s.mem s.i.toNat n (s.reg x) (s.reg y) row col) ∧
    ∀ ps, ps.Perm (spritePixels (s.reg x) (s.reg y) 0 (Memory.bytesFrom s.mem s.dataAddr n)) →
      ∃ t, exec (.drw x y n) s = .next t ∧ t.fb = (drawPixels ps ⟨s.fb, false⟩).fb ∧
        (t.reg 15 = 1 ↔ (drawPixels ps ⟨s.fb, false⟩).hit = true)

/-- Drawing the same sprite at the same place twice restores the framebuffer, and the second draw gives VF = 1 exactly
where the first one set a pixel. (R151's corner case says "whenever the sprite has a 1 bit"; that fails where every
pixel under the sprite was 1 before, and log 14 says why the pseudocode is followed. With x or y = F the first draw
overwrites a coordinate, so the second one is at another place.) -/
def Obligations.DrawingTwiceRestoresTheScreen : Prop :=
  ∀ (s t : State) (x y : RegIdx) (n : Nat), n ≤ 15 → x ≠ 15 → y ≠ 15 → (n = 0 ∨ s.i.toNat + n - 1 ≤ 0xFFF) →
    exec (.drw x y n) s = .next t →
    ∃ u, exec (.drw x y n) t = .next u ∧ u.fb = s.fb ∧
      (u.reg 15 = 1 ↔ ∃ row col, UnderSprite s.mem s.i.toNat n (s.reg x) (s.reg y) row col ∧ s.pixel row col = false)

/-! ## Keypad and timers (spec/45_keypad_timers.md) -/

/-- SKP and SKNP (R154, R155): the key named by Vx; a value above 15 is KeyIndexOutOfBounds and changes nothing
(R152, the spec's decision D10). -/
def Obligations.KeySkipsReadTheLatch : Prop :=
  ∀ (s : State) (x : RegIdx),
    decodeWord (formatXKK 0xE x 0x9E) = .ok (.skp x) ∧
    decodeWord (formatXKK 0xE x 0xA1) = .ok (.sknp x) ∧
    ((s.reg x).toNat ≤ 15 →
      GoesTo (.skp x) s (if s.key.getLsbD (s.reg x).toNat = true then s.pc + 4 else s.pc + 2) ∧
      GoesTo (.sknp x) s (if s.key.getLsbD (s.reg x).toNat = true then s.pc + 2 else s.pc + 4)) ∧
    ((s.reg x).toNat > 15 →
      TakesFatal (.skp x) s .keyIndexOutOfBounds ∧ TakesFatal (.sknp x) s .keyIndexOutOfBounds)

/-- LD Vx, K, the entering cycle (R156, the spec's decision D8): all keys are cleared, the engine waits with destination
x, and PC stays. -/
def Obligations.KeyWaitIsEntered : Prop :=
  ∀ (s : State) (x : RegIdx),
    decodeWord (formatXKK 0xF x 0x0A) = .ok (.ldVxK x) ∧
    ∃ t, exec (.ldVxK x) s = .next t ∧ (∀ k : KeyIdx, keyPressed t.key k.val = false) ∧ t.mode = .awaitingKey x ∧
      t.pc = s.pc ∧ t = { s with key := t.key, mode := t.mode } ∧ SameMemory s t

/-- LD Vx, DT and LD DT, Vx (R157, R158): `t_ref` is not moved. -/
def Obligations.DelayTimerTransfers : Prop :=
  ∀ (s : State) (x : RegIdx),
    decodeWord (formatXKK 0xF x 0x07) = .ok (.ldVxDt x) ∧
    WritesRegs (.ldVxDt x) s (fun r => if r = x then s.delay else s.reg r) ∧
    decodeWord (formatXKK 0xF x 0x15) = .ok (.ldDtVx x) ∧
    ∃ t, exec (.ldDtVx x) s = .next t ∧ t.delay = s.reg x ∧ t.pc = s.pc + 2 ∧
      t = { s with delay := t.delay, pc := t.pc } ∧ SameMemory s t

/-- LD ST, Vx (R159): `sound` is written, and with it the output `sound_active` (the spec's decision D26). -/
def Obligations.SoundTimerIsSet : Prop :=
  ∀ (s : State) (x : RegIdx),
    decodeWord (formatXKK 0xF x 0x18) = .ok (.ldStVx x) ∧
    ∃ t, exec (.ldStVx x) s = .next t ∧ t.sound = s.reg x ∧ (t.soundActive = true ↔ s.reg x ≠ 0) ∧
      t.pc = s.pc + 2 ∧ t = { s with sound := t.sound, pc := t.pc } ∧ SameMemory s t

/-! ## The cycle (spec/40_cycle.md) -/

/-- What the host's request does before the engine runs: a request State holds gives the port writes, `now` and `rnd`;
without one `now` does not decrease (the host's duty, D40), and nothing but the latch, `dirty`, the input ports,
`rnd_taken` and the model's own record of requests changes (log 1 to 4). -/
def Obligations.RequestIsTakenBeforeTheCycle : Prop :=
  ∀ s : State,
    (∀ ws now rnd rest, s.requests = ⟨ws, now, rnd⟩ :: rest →
      s.beginCycle.now = now ∧ s.beginCycle.rnd = rnd ∧ s.beginCycle.requests = rest ∧
      s.beginCycle.key = (ws.foldl State.portWrite s).key ∧ s.beginCycle.dirty = (ws.foldl State.portWrite s).dirty) ∧
    (s.requests = [] → s.now ≤ s.beginCycle.now ∧ s.beginCycle.requests = []) ∧
    s.beginCycle.rndTaken = false ∧
    s.beginCycle = { s with
      key := s.beginCycle.key
      dirty := s.beginCycle.dirty
      now := s.beginCycle.now
      rnd := s.beginCycle.rnd
      rndTaken := s.beginCycle.rndTaken
      requests := s.beginCycle.requests
      cycles := s.beginCycle.cycles }

/-- The port writes of R52 and R53, key by key: KeySet and KeyClear change one key, KeyWriteAll all of them, DirtyClear
the dirty flag, and nothing else of the machine changes. -/
def Obligations.PortWritesChangeLatchOrDirty : Prop :=
  ∀ (s : State) (k j : KeyIdx) (b : BitVec 16) (w : PortWrite),
    keyPressed (s.portWrite (.keySet k)).key j.val = (if j = k then true else keyPressed s.key j.val) ∧
    keyPressed (s.portWrite (.keyClear k)).key j.val = (if j = k then false else keyPressed s.key j.val) ∧
    keyPressed (s.portWrite (.keyWriteAll b)).key j.val = b.getLsbD j.val ∧
    (s.portWrite .dirtyClear).key = s.key ∧ (s.portWrite .dirtyClear).dirty = false ∧
    (w ≠ .dirtyClear → (s.portWrite w).dirty = s.dirty) ∧
    s.portWrite w = { s with key := (s.portWrite w).key, dirty := (s.portWrite w).dirty }

/-- A step runs the decoded instruction (R100): in Running, where the bytes at PC decode to a well-formed instruction,
the step is the request (`beginCycle`), then `exec` of it, then the tick and the results; where `exec` takes a fatal
error the step ends at once, with no tick (R163). -/
def Obligations.StepRunsTheDecodedInstruction : Prop :=
  ∀ (s t : State) (i : Instr), s.mode = .running → s.pc.toNat ≤ 0xFFE →
    decode [Memory.byteAt s.mem s.pc.toNat, Memory.byteAt s.mem (s.pc.toNat + 1)] = .ok (i, []) →
    exec i s.beginCycle = .next t →
    ((∃ rec, t.mode = .faulted rec) → step s = .next t) ∧
    (t.Safe → step s = .next { t.tick with
      status := some .ok
      toneComplete := decide (s.sound.toNat ≠ 0) && decide (t.tick.sound.toNat = 0) })

/-- A cycle that fetches an unsupported word (R107, the spec's decision D15) is a no-op that advances, ticks and
reports. -/
def Obligations.UnsupportedWordIsANoOp : Prop :=
  ∀ (s : State) (op : Word) (e : DecodeError), s.mode = .running → s.fetch = some op → decodeWord op = .error e →
    ∃ t, step s = .next t ∧ t.pc = s.pc + 2 ∧ t.status = some (.unsupported op s.pc) ∧ t.mode = .running ∧
      t = { s.beginCycle.tick with pc := t.pc, status := t.status, toneComplete := t.toneComplete } ∧ SameMemory s t

/-- Fetch (R102): above 0xFFE it is MemoryOutOfBounds with no opcode and the PC, and else the two bytes at PC, the byte at
PC being bits 15:8, at an odd PC too (R69, the spec's decision D5). -/
def Obligations.FetchReadsTwoBytesOrFaults : Prop :=
  ∀ s : State,
    (s.pc.toNat ≤ 0xFFE → ∃ op, s.fetch = some op ∧ op.extractLsb' 8 8 = Memory.byteAt s.mem s.pc.toNat ∧
      op.extractLsb' 0 8 = Memory.byteAt s.mem (s.pc.toNat + 1)) ∧
    (s.pc.toNat > 0xFFE → s.mode = .running → step s = .next { s.beginCycle with
      mode := .faulted ⟨.memoryOutOfBounds, none, some s.pc⟩
      status := some (.fatal ⟨.memoryOutOfBounds, none, some s.pc⟩)
      toneComplete := false
      rndTaken := false })

/-- A Faulted block stays as it is (R98, R166, the spec's decision D12): but for the request (the host's port writes are
accepted) a cycle changes nothing, and reports the same record. -/
def Obligations.FaultedIsTerminal : Prop :=
  ∀ (s : State) (rec : FatalRecord), s.mode = .faulted rec →
    step s = .next { s.beginCycle with
      status := some (.fatal rec)
      toneComplete := false
      rndTaken := false }

/-- The key wait (R99, the spec's decision D9): the first cycle that finds a pressed key writes its lowest index to Vx,
steps past the Fx0A and is Running again, and it executes no instruction; without a pressed key nothing changes. The
tick proceeds either way. -/
def Obligations.KeyWaitEndsWithTheLowestKey : Prop :=
  ∀ (s : State) (x : RegIdx), s.mode = .awaitingKey x →
    (∀ k, k < 16 → keyPressed s.beginCycle.key k = true → (∀ j, j < k → keyPressed s.beginCycle.key j = false) →
      ∃ t, step s = .next t ∧ (t.reg x).toNat = k ∧ (∀ r, r ≠ x → t.reg r = s.reg r) ∧ t.pc = s.pc + 2 ∧
        t.mode = .running ∧ t.status = some .ok ∧
        t = { s.beginCycle.tick with
          v := t.v
          pc := t.pc
          mode := t.mode
          status := t.status
          toneComplete := t.toneComplete } ∧
        SameMemory s t) ∧
    ((∀ k, k < 16 → keyPressed s.beginCycle.key k = false) →
      ∃ t, step s = .next t ∧ t.pc = s.pc ∧ t.mode = .awaitingKey x ∧ t.status = some .ok ∧
        t = { s.beginCycle.tick with status := t.status, toneComplete := t.toneComplete } ∧ SameMemory s t)

/-- The tick (R173, the spec's decisions D2 and D40), for every value of SECOND: when 60 · (now - t_ref) reaches SECOND each
counter drops by one, with floor 0, and `t_ref` becomes `now`; else, and where `now` is before `t_ref`, nothing
changes. -/
def Obligations.TickCountsDownWhenDue : Prop :=
  ∀ s : State,
    (s.tRef ≤ s.now ∧ s.second ≤ 60 * (s.now - s.tRef) →
      s.tick.delay.toNat = s.delay.toNat - 1 ∧ s.tick.sound.toNat = s.sound.toNat - 1 ∧ s.tick.tRef = s.now ∧
      s.tick = { s with delay := s.tick.delay, sound := s.tick.sound, tRef := s.tick.tRef }) ∧
    (s.now < s.tRef ∨ 60 * (s.now - s.tRef) < s.second → s.tick = s)

/-- The timers do not run faster than 60 Hz (R174, the worked example W9): the ticks of any number of cycles whose times
lie within 1/60 s of one another take at most 1 from each counter. -/
def Obligations.TicksWithinOnePeriodCountOnce : Prop :=
  ∀ (s : State) (nows : List Nat), (∀ a ∈ nows, ∀ b ∈ nows, 60 * (a - b) < s.second) →
    s.delay.toNat ≤ (ticksAt s nows).delay.toNat + 1 ∧ (ticksAt s nows).delay.toNat ≤ s.delay.toNat ∧
    s.sound.toNat ≤ (ticksAt s nows).sound.toNat + 1 ∧ (ticksAt s nows).sound.toNat ≤ s.sound.toNat

/-- `tone_complete` (R101, R175, the spec's decision D25): 1 for a cycle iff `sound` was nonzero at its start and is 0 at
its end, and 0 for a cycle that ends or stays in a fatal error. -/
def Obligations.ToneCompleteIsOneShot : Prop :=
  ∀ s t : State, step s = .next t →
    (t.Safe → (t.toneComplete = true ↔ s.sound ≠ 0 ∧ t.sound = 0)) ∧
    (∀ rec, t.mode = .faulted rec → t.toneComplete = false)

/-- `rnd_taken` (R50, R136, the spec's decision D27): 1 exactly for a cycle that executes Cxkk. -/
def Obligations.RndTakenExactlyByRnd : Prop :=
  ∀ s t : State, step s = .next t →
    (t.rndTaken = true ↔ s.mode = .running ∧ ∃ op x kk, s.fetch = some op ∧ decodeWord op = .ok (.rnd x kk))

/-- Every cycle answers a next state, from every state: no step of the block stops in a fault or a refusal (R93, R100,
R163). -/
def Obligations.EveryCycleAnswersANextState : Prop := ∀ s : State, ∃ t, step s = .next t

/-- Every fatal error is precise (R162 to R164, the spec's decision D11): a cycle that ends in one changes nothing but the
mode and the results after the host's request; the record holds the PC, and the opcode where one was fetched. -/
def Obligations.FatalErrorsArePrecise : Prop :=
  ∀ (s t : State) (rec : FatalRecord), s.mode = .running → step s = .next t → t.mode = .faulted rec →
    rec.pc = some s.pc ∧ rec.op = s.fetch ∧
    t = { s.beginCycle with
      mode := .faulted rec
      status := some (.fatal rec)
      toneComplete := false
      rndTaken := false }

/-- Only Fx0A enters the key wait (R106, R180), and it holds PC. -/
def Obligations.OnlyFx0AEntersTheKeyWait : Prop :=
  ∀ (s t : State) (x : RegIdx), s.mode = .running → step s = .next t → t.mode = .awaitingKey x →
    (∃ op, s.fetch = some op ∧ decodeWord op = .ok (.ldVxK x)) ∧ t.pc = s.pc

/-! ## Whole-machine rules -/

/-- Every flag an instruction writes is 0 or 1, and no instruction writes VF but the flag writers and those whose
destination is VF (R21). -/
def Obligations.OnlyFlagWritersWriteVF : Prop :=
  ∀ (i : Instr) (s t : State), exec i s = .next t → s.Safe → t.Safe →
    (writesFlag i s.fx1eSetsVf → t.reg 15 = 0 ∨ t.reg 15 = 1) ∧
    (¬ writesFlag i s.fx1eSetsVf → ¬ hasDest i 15 → t.reg 15 = s.reg 15)

/-- Only Annn, Fx1E and Fx29 write I, and what they write is in 0x000..0xFFF (R23): Fx33, Fx55, Fx65 and Dxyn leave it
unchanged (the spec's decision D29). -/
def Obligations.OnlyThreeInstructionsWriteI : Prop :=
  ∀ (i : Instr) (s t : State), exec i s = .next t →
    t.i = s.i ∨ (t.i.toNat ≤ 0xFFF ∧ ((∃ nnn, i = .ldI nnn) ∨ (∃ x, i = .addI x) ∨ ∃ x, i = .ldF x))

/-- Only Fx33 and Fx55 write memory, and only inside 0x000..0xFFF at I upward (R22, R60, R65). -/
def Obligations.OnlyTwoInstructionsWriteMemory : Prop :=
  ∀ (i : Instr) (s t : State) (a : Nat), Memory.wf s.mem = true → exec i s = .next t →
    Memory.byteAt t.mem a ≠ Memory.byteAt s.mem a →
    a ≤ 0xFFF ∧ (((∃ x, i = .ldB x) ∧ s.dataAddr ≤ a ∧ a ≤ s.dataAddr + 2) ∨
      ∃ x, i = .ldMemVx x ∧ s.dataAddr ≤ a ∧ a ≤ s.dataAddr + x.val)

/-- No instruction but Cxkk reads the random byte (R36, R50): with another byte offered, every other instruction does
exactly the same. -/
def Obligations.OnlyRndReadsTheRandomByte : Prop :=
  ∀ (i : Instr) (s t : State) (b : Byte), (∀ x kk, i ≠ .rnd x kk) → exec i s = .next t →
    exec i { s with rnd := b } = .next { t with rnd := b }

/-- The invariant holds at reset: memory is canonical, I, PC and the return addresses are in their ranges. -/
def Obligations.InvariantHoldsAtReset : Prop := State.reset.Inv

/-- Every step keeps the invariant, from every state that has it: memory stays canonical, I stays in 0x000..0xFFF (R23), PC
never exceeds 0x10FE and so never wraps, and return addresses stay at most 0x1000 (R25). -/
def Obligations.EveryStepKeepsTheInvariant : Prop := ∀ s t : State, s.Inv → step s = .next t → t.Inv

/-- The host's placing of a word (log 11): from any state with a canonical memory, the next step runs exactly the placed
instruction. -/
def Obligations.PlacedInstructionRunsNext : Prop :=
  ∀ (s : State) (i : Instr), Memory.wf s.mem = true → i.WellFormed →
    (s.withFetchWord 16 (encode i).toNat).mode = .running ∧
    (s.withFetchWord 16 (encode i).toNat).fetch = some (encode i) ∧
    ∃ t, exec i (s.withFetchWord 16 (encode i).toNat).beginCycle = .next t ∧
      step (s.withFetchWord 16 (encode i).toNat) = .next (t.afterExec s.sound)
end

