-- ==== Sys2Proof/Laws/State.lean ====
section
/-! SUPPORT. What each update of State does to each field: one lemma per field per update, all by rfl. -/

namespace Sys2Proof.Machine

variable (s : State)

/-! ## State.setReg -/

@[simp] theorem State.setReg_v (x : RegIdx) (b : Byte) : (s.setReg x b).v = s.v.set x.val b := rfl
@[simp] theorem State.setReg_i (x : RegIdx) (b : Byte) : (s.setReg x b).i = s.i := rfl
@[simp] theorem State.setReg_pc (x : RegIdx) (b : Byte) : (s.setReg x b).pc = s.pc := rfl
@[simp] theorem State.setReg_sp (x : RegIdx) (b : Byte) : (s.setReg x b).sp = s.sp := rfl
@[simp] theorem State.setReg_stack (x : RegIdx) (b : Byte) : (s.setReg x b).stack = s.stack := rfl
@[simp] theorem State.setReg_delay (x : RegIdx) (b : Byte) : (s.setReg x b).delay = s.delay := rfl
@[simp] theorem State.setReg_sound (x : RegIdx) (b : Byte) : (s.setReg x b).sound = s.sound := rfl
@[simp] theorem State.setReg_tRef (x : RegIdx) (b : Byte) : (s.setReg x b).tRef = s.tRef := rfl
@[simp] theorem State.setReg_fb (x : RegIdx) (b : Byte) : (s.setReg x b).fb = s.fb := rfl
@[simp] theorem State.setReg_dirty (x : RegIdx) (b : Byte) : (s.setReg x b).dirty = s.dirty := rfl
@[simp] theorem State.setReg_key (x : RegIdx) (b : Byte) : (s.setReg x b).key = s.key := rfl
@[simp] theorem State.setReg_mode (x : RegIdx) (b : Byte) : (s.setReg x b).mode = s.mode := rfl
@[simp] theorem State.setReg_mem (x : RegIdx) (b : Byte) : (s.setReg x b).mem = s.mem := rfl
@[simp] theorem State.setReg_second (x : RegIdx) (b : Byte) : (s.setReg x b).second = s.second := rfl
@[simp] theorem State.setReg_fx1eSetsVf (x : RegIdx) (b : Byte) : (s.setReg x b).fx1eSetsVf = s.fx1eSetsVf := rfl
@[simp] theorem State.setReg_status (x : RegIdx) (b : Byte) : (s.setReg x b).status = s.status := rfl
@[simp] theorem State.setReg_toneComplete (x : RegIdx) (b : Byte) : (s.setReg x b).toneComplete = s.toneComplete := rfl
@[simp] theorem State.setReg_rndTaken (x : RegIdx) (b : Byte) : (s.setReg x b).rndTaken = s.rndTaken := rfl
@[simp] theorem State.setReg_now (x : RegIdx) (b : Byte) : (s.setReg x b).now = s.now := rfl
@[simp] theorem State.setReg_rnd (x : RegIdx) (b : Byte) : (s.setReg x b).rnd = s.rnd := rfl
@[simp] theorem State.setReg_requests (x : RegIdx) (b : Byte) : (s.setReg x b).requests = s.requests := rfl
@[simp] theorem State.setReg_cycles (x : RegIdx) (b : Byte) : (s.setReg x b).cycles = s.cycles := rfl

/-! ## State.setI -/

@[simp] theorem State.setI_v (w : Word) : (s.setI w).v = s.v := rfl
@[simp] theorem State.setI_i (w : Word) : (s.setI w).i = w := rfl
@[simp] theorem State.setI_pc (w : Word) : (s.setI w).pc = s.pc := rfl
@[simp] theorem State.setI_sp (w : Word) : (s.setI w).sp = s.sp := rfl
@[simp] theorem State.setI_stack (w : Word) : (s.setI w).stack = s.stack := rfl
@[simp] theorem State.setI_delay (w : Word) : (s.setI w).delay = s.delay := rfl
@[simp] theorem State.setI_sound (w : Word) : (s.setI w).sound = s.sound := rfl
@[simp] theorem State.setI_tRef (w : Word) : (s.setI w).tRef = s.tRef := rfl
@[simp] theorem State.setI_fb (w : Word) : (s.setI w).fb = s.fb := rfl
@[simp] theorem State.setI_dirty (w : Word) : (s.setI w).dirty = s.dirty := rfl
@[simp] theorem State.setI_key (w : Word) : (s.setI w).key = s.key := rfl
@[simp] theorem State.setI_mode (w : Word) : (s.setI w).mode = s.mode := rfl
@[simp] theorem State.setI_mem (w : Word) : (s.setI w).mem = s.mem := rfl
@[simp] theorem State.setI_second (w : Word) : (s.setI w).second = s.second := rfl
@[simp] theorem State.setI_fx1eSetsVf (w : Word) : (s.setI w).fx1eSetsVf = s.fx1eSetsVf := rfl
@[simp] theorem State.setI_status (w : Word) : (s.setI w).status = s.status := rfl
@[simp] theorem State.setI_toneComplete (w : Word) : (s.setI w).toneComplete = s.toneComplete := rfl
@[simp] theorem State.setI_rndTaken (w : Word) : (s.setI w).rndTaken = s.rndTaken := rfl
@[simp] theorem State.setI_now (w : Word) : (s.setI w).now = s.now := rfl
@[simp] theorem State.setI_rnd (w : Word) : (s.setI w).rnd = s.rnd := rfl
@[simp] theorem State.setI_requests (w : Word) : (s.setI w).requests = s.requests := rfl
@[simp] theorem State.setI_cycles (w : Word) : (s.setI w).cycles = s.cycles := rfl

/-! ## State.setFlag -/

@[simp] theorem State.setFlag_v (c : Bool) : (s.setFlag c).v = s.v.set regVF.val (flagByte c) := rfl
@[simp] theorem State.setFlag_i (c : Bool) : (s.setFlag c).i = s.i := rfl
@[simp] theorem State.setFlag_pc (c : Bool) : (s.setFlag c).pc = s.pc := rfl
@[simp] theorem State.setFlag_sp (c : Bool) : (s.setFlag c).sp = s.sp := rfl
@[simp] theorem State.setFlag_stack (c : Bool) : (s.setFlag c).stack = s.stack := rfl
@[simp] theorem State.setFlag_delay (c : Bool) : (s.setFlag c).delay = s.delay := rfl
@[simp] theorem State.setFlag_sound (c : Bool) : (s.setFlag c).sound = s.sound := rfl
@[simp] theorem State.setFlag_tRef (c : Bool) : (s.setFlag c).tRef = s.tRef := rfl
@[simp] theorem State.setFlag_fb (c : Bool) : (s.setFlag c).fb = s.fb := rfl
@[simp] theorem State.setFlag_dirty (c : Bool) : (s.setFlag c).dirty = s.dirty := rfl
@[simp] theorem State.setFlag_key (c : Bool) : (s.setFlag c).key = s.key := rfl
@[simp] theorem State.setFlag_mode (c : Bool) : (s.setFlag c).mode = s.mode := rfl
@[simp] theorem State.setFlag_mem (c : Bool) : (s.setFlag c).mem = s.mem := rfl
@[simp] theorem State.setFlag_second (c : Bool) : (s.setFlag c).second = s.second := rfl
@[simp] theorem State.setFlag_fx1eSetsVf (c : Bool) : (s.setFlag c).fx1eSetsVf = s.fx1eSetsVf := rfl
@[simp] theorem State.setFlag_status (c : Bool) : (s.setFlag c).status = s.status := rfl
@[simp] theorem State.setFlag_toneComplete (c : Bool) : (s.setFlag c).toneComplete = s.toneComplete := rfl
@[simp] theorem State.setFlag_rndTaken (c : Bool) : (s.setFlag c).rndTaken = s.rndTaken := rfl
@[simp] theorem State.setFlag_now (c : Bool) : (s.setFlag c).now = s.now := rfl
@[simp] theorem State.setFlag_rnd (c : Bool) : (s.setFlag c).rnd = s.rnd := rfl
@[simp] theorem State.setFlag_requests (c : Bool) : (s.setFlag c).requests = s.requests := rfl
@[simp] theorem State.setFlag_cycles (c : Bool) : (s.setFlag c).cycles = s.cycles := rfl

/-! ## State.act -/

@[simp] theorem State.act_v (a : PcAction) : (s.act a).v = s.v := rfl
@[simp] theorem State.act_i (a : PcAction) : (s.act a).i = s.i := rfl
@[simp] theorem State.act_pc (a : PcAction) : (s.act a).pc = nextPc s.pc a := rfl
@[simp] theorem State.act_sp (a : PcAction) : (s.act a).sp = s.sp := rfl
@[simp] theorem State.act_stack (a : PcAction) : (s.act a).stack = s.stack := rfl
@[simp] theorem State.act_delay (a : PcAction) : (s.act a).delay = s.delay := rfl
@[simp] theorem State.act_sound (a : PcAction) : (s.act a).sound = s.sound := rfl
@[simp] theorem State.act_tRef (a : PcAction) : (s.act a).tRef = s.tRef := rfl
@[simp] theorem State.act_fb (a : PcAction) : (s.act a).fb = s.fb := rfl
@[simp] theorem State.act_dirty (a : PcAction) : (s.act a).dirty = s.dirty := rfl
@[simp] theorem State.act_key (a : PcAction) : (s.act a).key = s.key := rfl
@[simp] theorem State.act_mode (a : PcAction) : (s.act a).mode = s.mode := rfl
@[simp] theorem State.act_mem (a : PcAction) : (s.act a).mem = s.mem := rfl
@[simp] theorem State.act_second (a : PcAction) : (s.act a).second = s.second := rfl
@[simp] theorem State.act_fx1eSetsVf (a : PcAction) : (s.act a).fx1eSetsVf = s.fx1eSetsVf := rfl
@[simp] theorem State.act_status (a : PcAction) : (s.act a).status = s.status := rfl
@[simp] theorem State.act_toneComplete (a : PcAction) : (s.act a).toneComplete = s.toneComplete := rfl
@[simp] theorem State.act_rndTaken (a : PcAction) : (s.act a).rndTaken = s.rndTaken := rfl
@[simp] theorem State.act_now (a : PcAction) : (s.act a).now = s.now := rfl
@[simp] theorem State.act_rnd (a : PcAction) : (s.act a).rnd = s.rnd := rfl
@[simp] theorem State.act_requests (a : PcAction) : (s.act a).requests = s.requests := rfl
@[simp] theorem State.act_cycles (a : PcAction) : (s.act a).cycles = s.cycles := rfl

/-! ## State.reportFatal -/

@[simp] theorem State.reportFatal_v (rec : FatalRecord) : (s.reportFatal rec).v = s.v := rfl
@[simp] theorem State.reportFatal_i (rec : FatalRecord) : (s.reportFatal rec).i = s.i := rfl
@[simp] theorem State.reportFatal_pc (rec : FatalRecord) : (s.reportFatal rec).pc = s.pc := rfl
@[simp] theorem State.reportFatal_sp (rec : FatalRecord) : (s.reportFatal rec).sp = s.sp := rfl
@[simp] theorem State.reportFatal_stack (rec : FatalRecord) : (s.reportFatal rec).stack = s.stack := rfl
@[simp] theorem State.reportFatal_delay (rec : FatalRecord) : (s.reportFatal rec).delay = s.delay := rfl
@[simp] theorem State.reportFatal_sound (rec : FatalRecord) : (s.reportFatal rec).sound = s.sound := rfl
@[simp] theorem State.reportFatal_tRef (rec : FatalRecord) : (s.reportFatal rec).tRef = s.tRef := rfl
@[simp] theorem State.reportFatal_fb (rec : FatalRecord) : (s.reportFatal rec).fb = s.fb := rfl
@[simp] theorem State.reportFatal_dirty (rec : FatalRecord) : (s.reportFatal rec).dirty = s.dirty := rfl
@[simp] theorem State.reportFatal_key (rec : FatalRecord) : (s.reportFatal rec).key = s.key := rfl
@[simp] theorem State.reportFatal_mode (rec : FatalRecord) : (s.reportFatal rec).mode = s.mode := rfl
@[simp] theorem State.reportFatal_mem (rec : FatalRecord) : (s.reportFatal rec).mem = s.mem := rfl
@[simp] theorem State.reportFatal_second (rec : FatalRecord) : (s.reportFatal rec).second = s.second := rfl
@[simp] theorem State.reportFatal_fx1eSetsVf (rec : FatalRecord) : (s.reportFatal rec).fx1eSetsVf = s.fx1eSetsVf := rfl
@[simp] theorem State.reportFatal_status (rec : FatalRecord) : (s.reportFatal rec).status = some (.fatal rec) := rfl
@[simp] theorem State.reportFatal_toneComplete (rec : FatalRecord) : (s.reportFatal rec).toneComplete = false := rfl
@[simp] theorem State.reportFatal_rndTaken (rec : FatalRecord) : (s.reportFatal rec).rndTaken = false := rfl
@[simp] theorem State.reportFatal_now (rec : FatalRecord) : (s.reportFatal rec).now = s.now := rfl
@[simp] theorem State.reportFatal_rnd (rec : FatalRecord) : (s.reportFatal rec).rnd = s.rnd := rfl
@[simp] theorem State.reportFatal_requests (rec : FatalRecord) : (s.reportFatal rec).requests = s.requests := rfl
@[simp] theorem State.reportFatal_cycles (rec : FatalRecord) : (s.reportFatal rec).cycles = s.cycles := rfl

/-! ## State.raise -/

@[simp] theorem State.raise_v (code : FatalCode) (op : Option Word) : (s.raise code op).v = s.v := rfl
@[simp] theorem State.raise_i (code : FatalCode) (op : Option Word) : (s.raise code op).i = s.i := rfl
@[simp] theorem State.raise_pc (code : FatalCode) (op : Option Word) : (s.raise code op).pc = s.pc := rfl
@[simp] theorem State.raise_sp (code : FatalCode) (op : Option Word) : (s.raise code op).sp = s.sp := rfl
@[simp] theorem State.raise_stack (code : FatalCode) (op : Option Word) : (s.raise code op).stack = s.stack := rfl
@[simp] theorem State.raise_delay (code : FatalCode) (op : Option Word) : (s.raise code op).delay = s.delay := rfl
@[simp] theorem State.raise_sound (code : FatalCode) (op : Option Word) : (s.raise code op).sound = s.sound := rfl
@[simp] theorem State.raise_tRef (code : FatalCode) (op : Option Word) : (s.raise code op).tRef = s.tRef := rfl
@[simp] theorem State.raise_fb (code : FatalCode) (op : Option Word) : (s.raise code op).fb = s.fb := rfl
@[simp] theorem State.raise_dirty (code : FatalCode) (op : Option Word) : (s.raise code op).dirty = s.dirty := rfl
@[simp] theorem State.raise_key (code : FatalCode) (op : Option Word) : (s.raise code op).key = s.key := rfl
@[simp] theorem State.raise_mode (code : FatalCode) (op : Option Word) : (s.raise code op).mode = .faulted ⟨code, op, some s.pc⟩ := rfl
@[simp] theorem State.raise_mem (code : FatalCode) (op : Option Word) : (s.raise code op).mem = s.mem := rfl
@[simp] theorem State.raise_second (code : FatalCode) (op : Option Word) : (s.raise code op).second = s.second := rfl
@[simp] theorem State.raise_fx1eSetsVf (code : FatalCode) (op : Option Word) : (s.raise code op).fx1eSetsVf = s.fx1eSetsVf := rfl
@[simp] theorem State.raise_status (code : FatalCode) (op : Option Word) : (s.raise code op).status = some (.fatal ⟨code, op, some s.pc⟩) := rfl
@[simp] theorem State.raise_toneComplete (code : FatalCode) (op : Option Word) : (s.raise code op).toneComplete = false := rfl
@[simp] theorem State.raise_rndTaken (code : FatalCode) (op : Option Word) : (s.raise code op).rndTaken = false := rfl
@[simp] theorem State.raise_now (code : FatalCode) (op : Option Word) : (s.raise code op).now = s.now := rfl
@[simp] theorem State.raise_rnd (code : FatalCode) (op : Option Word) : (s.raise code op).rnd = s.rnd := rfl
@[simp] theorem State.raise_requests (code : FatalCode) (op : Option Word) : (s.raise code op).requests = s.requests := rfl
@[simp] theorem State.raise_cycles (code : FatalCode) (op : Option Word) : (s.raise code op).cycles = s.cycles := rfl

/-! ## State.raiseIn -/

@[simp] theorem State.raiseIn_v (code : FatalCode) (i : Instr) : (s.raiseIn code i).v = s.v := rfl
@[simp] theorem State.raiseIn_i (code : FatalCode) (i : Instr) : (s.raiseIn code i).i = s.i := rfl
@[simp] theorem State.raiseIn_pc (code : FatalCode) (i : Instr) : (s.raiseIn code i).pc = s.pc := rfl
@[simp] theorem State.raiseIn_sp (code : FatalCode) (i : Instr) : (s.raiseIn code i).sp = s.sp := rfl
@[simp] theorem State.raiseIn_stack (code : FatalCode) (i : Instr) : (s.raiseIn code i).stack = s.stack := rfl
@[simp] theorem State.raiseIn_delay (code : FatalCode) (i : Instr) : (s.raiseIn code i).delay = s.delay := rfl
@[simp] theorem State.raiseIn_sound (code : FatalCode) (i : Instr) : (s.raiseIn code i).sound = s.sound := rfl
@[simp] theorem State.raiseIn_tRef (code : FatalCode) (i : Instr) : (s.raiseIn code i).tRef = s.tRef := rfl
@[simp] theorem State.raiseIn_fb (code : FatalCode) (i : Instr) : (s.raiseIn code i).fb = s.fb := rfl
@[simp] theorem State.raiseIn_dirty (code : FatalCode) (i : Instr) : (s.raiseIn code i).dirty = s.dirty := rfl
@[simp] theorem State.raiseIn_key (code : FatalCode) (i : Instr) : (s.raiseIn code i).key = s.key := rfl
@[simp] theorem State.raiseIn_mode (code : FatalCode) (i : Instr) : (s.raiseIn code i).mode = .faulted ⟨code, some (encode i), some s.pc⟩ := rfl
@[simp] theorem State.raiseIn_mem (code : FatalCode) (i : Instr) : (s.raiseIn code i).mem = s.mem := rfl
@[simp] theorem State.raiseIn_second (code : FatalCode) (i : Instr) : (s.raiseIn code i).second = s.second := rfl
@[simp] theorem State.raiseIn_fx1eSetsVf (code : FatalCode) (i : Instr) : (s.raiseIn code i).fx1eSetsVf = s.fx1eSetsVf := rfl
@[simp] theorem State.raiseIn_status (code : FatalCode) (i : Instr) : (s.raiseIn code i).status = some (.fatal ⟨code, some (encode i), some s.pc⟩) := rfl
@[simp] theorem State.raiseIn_toneComplete (code : FatalCode) (i : Instr) : (s.raiseIn code i).toneComplete = false := rfl
@[simp] theorem State.raiseIn_rndTaken (code : FatalCode) (i : Instr) : (s.raiseIn code i).rndTaken = false := rfl
@[simp] theorem State.raiseIn_now (code : FatalCode) (i : Instr) : (s.raiseIn code i).now = s.now := rfl
@[simp] theorem State.raiseIn_rnd (code : FatalCode) (i : Instr) : (s.raiseIn code i).rnd = s.rnd := rfl
@[simp] theorem State.raiseIn_requests (code : FatalCode) (i : Instr) : (s.raiseIn code i).requests = s.requests := rfl
@[simp] theorem State.raiseIn_cycles (code : FatalCode) (i : Instr) : (s.raiseIn code i).cycles = s.cycles := rfl

/-! ## State.portWrite -/

@[simp] theorem State.portWrite_v (w : PortWrite) : (s.portWrite w).v = s.v := rfl
@[simp] theorem State.portWrite_i (w : PortWrite) : (s.portWrite w).i = s.i := rfl
@[simp] theorem State.portWrite_pc (w : PortWrite) : (s.portWrite w).pc = s.pc := rfl
@[simp] theorem State.portWrite_sp (w : PortWrite) : (s.portWrite w).sp = s.sp := rfl
@[simp] theorem State.portWrite_stack (w : PortWrite) : (s.portWrite w).stack = s.stack := rfl
@[simp] theorem State.portWrite_delay (w : PortWrite) : (s.portWrite w).delay = s.delay := rfl
@[simp] theorem State.portWrite_sound (w : PortWrite) : (s.portWrite w).sound = s.sound := rfl
@[simp] theorem State.portWrite_tRef (w : PortWrite) : (s.portWrite w).tRef = s.tRef := rfl
@[simp] theorem State.portWrite_fb (w : PortWrite) : (s.portWrite w).fb = s.fb := rfl
@[simp] theorem State.portWrite_dirty (w : PortWrite) : (s.portWrite w).dirty = dirtyAfterWrite s.dirty w := rfl
@[simp] theorem State.portWrite_key (w : PortWrite) : (s.portWrite w).key = keyAfterWrite s.key w := rfl
@[simp] theorem State.portWrite_mode (w : PortWrite) : (s.portWrite w).mode = s.mode := rfl
@[simp] theorem State.portWrite_mem (w : PortWrite) : (s.portWrite w).mem = s.mem := rfl
@[simp] theorem State.portWrite_second (w : PortWrite) : (s.portWrite w).second = s.second := rfl
@[simp] theorem State.portWrite_fx1eSetsVf (w : PortWrite) : (s.portWrite w).fx1eSetsVf = s.fx1eSetsVf := rfl
@[simp] theorem State.portWrite_status (w : PortWrite) : (s.portWrite w).status = s.status := rfl
@[simp] theorem State.portWrite_toneComplete (w : PortWrite) : (s.portWrite w).toneComplete = s.toneComplete := rfl
@[simp] theorem State.portWrite_rndTaken (w : PortWrite) : (s.portWrite w).rndTaken = s.rndTaken := rfl
@[simp] theorem State.portWrite_now (w : PortWrite) : (s.portWrite w).now = s.now := rfl
@[simp] theorem State.portWrite_rnd (w : PortWrite) : (s.portWrite w).rnd = s.rnd := rfl
@[simp] theorem State.portWrite_requests (w : PortWrite) : (s.portWrite w).requests = s.requests := rfl
@[simp] theorem State.portWrite_cycles (w : PortWrite) : (s.portWrite w).cycles = s.cycles := rfl

/-! ## State.beginCycle -/

@[simp] theorem State.beginCycle_v : (s.beginCycle).v = s.v := rfl
@[simp] theorem State.beginCycle_i : (s.beginCycle).i = s.i := rfl
@[simp] theorem State.beginCycle_pc : (s.beginCycle).pc = s.pc := rfl
@[simp] theorem State.beginCycle_sp : (s.beginCycle).sp = s.sp := rfl
@[simp] theorem State.beginCycle_stack : (s.beginCycle).stack = s.stack := rfl
@[simp] theorem State.beginCycle_delay : (s.beginCycle).delay = s.delay := rfl
@[simp] theorem State.beginCycle_sound : (s.beginCycle).sound = s.sound := rfl
@[simp] theorem State.beginCycle_tRef : (s.beginCycle).tRef = s.tRef := rfl
@[simp] theorem State.beginCycle_fb : (s.beginCycle).fb = s.fb := rfl
@[simp] theorem State.beginCycle_dirty : (s.beginCycle).dirty = dirtyAfterWrites s.dirty s.nextRequest.writes := rfl
@[simp] theorem State.beginCycle_key : (s.beginCycle).key = keyAfterWrites s.key s.nextRequest.writes := rfl
@[simp] theorem State.beginCycle_mode : (s.beginCycle).mode = s.mode := rfl
@[simp] theorem State.beginCycle_mem : (s.beginCycle).mem = s.mem := rfl
@[simp] theorem State.beginCycle_second : (s.beginCycle).second = s.second := rfl
@[simp] theorem State.beginCycle_fx1eSetsVf : (s.beginCycle).fx1eSetsVf = s.fx1eSetsVf := rfl
@[simp] theorem State.beginCycle_status : (s.beginCycle).status = s.status := rfl
@[simp] theorem State.beginCycle_toneComplete : (s.beginCycle).toneComplete = s.toneComplete := rfl
@[simp] theorem State.beginCycle_rndTaken : (s.beginCycle).rndTaken = false := rfl
@[simp] theorem State.beginCycle_now : (s.beginCycle).now = s.nextRequest.now := rfl
@[simp] theorem State.beginCycle_rnd : (s.beginCycle).rnd = s.nextRequest.rnd := rfl
@[simp] theorem State.beginCycle_requests : (s.beginCycle).requests = s.requests.tail := rfl
@[simp] theorem State.beginCycle_cycles : (s.beginCycle).cycles = s.cycles + 1 := rfl

/-! ## State.tick -/

@[simp] theorem State.tick_v : (s.tick).v = s.v := rfl
@[simp] theorem State.tick_i : (s.tick).i = s.i := rfl
@[simp] theorem State.tick_pc : (s.tick).pc = s.pc := rfl
@[simp] theorem State.tick_sp : (s.tick).sp = s.sp := rfl
@[simp] theorem State.tick_stack : (s.tick).stack = s.stack := rfl
@[simp] theorem State.tick_delay : (s.tick).delay = if s.tickDue then countDown s.delay else s.delay := rfl
@[simp] theorem State.tick_sound : (s.tick).sound = if s.tickDue then countDown s.sound else s.sound := rfl
@[simp] theorem State.tick_tRef : (s.tick).tRef = if s.tickDue then s.now else s.tRef := rfl
@[simp] theorem State.tick_fb : (s.tick).fb = s.fb := rfl
@[simp] theorem State.tick_dirty : (s.tick).dirty = s.dirty := rfl
@[simp] theorem State.tick_key : (s.tick).key = s.key := rfl
@[simp] theorem State.tick_mode : (s.tick).mode = s.mode := rfl
@[simp] theorem State.tick_mem : (s.tick).mem = s.mem := rfl
@[simp] theorem State.tick_second : (s.tick).second = s.second := rfl
@[simp] theorem State.tick_fx1eSetsVf : (s.tick).fx1eSetsVf = s.fx1eSetsVf := rfl
@[simp] theorem State.tick_status : (s.tick).status = s.status := rfl
@[simp] theorem State.tick_toneComplete : (s.tick).toneComplete = s.toneComplete := rfl
@[simp] theorem State.tick_rndTaken : (s.tick).rndTaken = s.rndTaken := rfl
@[simp] theorem State.tick_now : (s.tick).now = s.now := rfl
@[simp] theorem State.tick_rnd : (s.tick).rnd = s.rnd := rfl
@[simp] theorem State.tick_requests : (s.tick).requests = s.requests := rfl
@[simp] theorem State.tick_cycles : (s.tick).cycles = s.cycles := rfl

/-! ## State.endCycle -/

@[simp] theorem State.endCycle_v (s0 : Byte) (st : CycleStatus) : (s.endCycle s0 st).v = s.v := rfl
@[simp] theorem State.endCycle_i (s0 : Byte) (st : CycleStatus) : (s.endCycle s0 st).i = s.i := rfl
@[simp] theorem State.endCycle_pc (s0 : Byte) (st : CycleStatus) : (s.endCycle s0 st).pc = s.pc := rfl
@[simp] theorem State.endCycle_sp (s0 : Byte) (st : CycleStatus) : (s.endCycle s0 st).sp = s.sp := rfl
@[simp] theorem State.endCycle_stack (s0 : Byte) (st : CycleStatus) : (s.endCycle s0 st).stack = s.stack := rfl
@[simp] theorem State.endCycle_delay (s0 : Byte) (st : CycleStatus) : (s.endCycle s0 st).delay = s.tick.delay := rfl
@[simp] theorem State.endCycle_sound (s0 : Byte) (st : CycleStatus) : (s.endCycle s0 st).sound = s.tick.sound := rfl
@[simp] theorem State.endCycle_tRef (s0 : Byte) (st : CycleStatus) : (s.endCycle s0 st).tRef = s.tick.tRef := rfl
@[simp] theorem State.endCycle_fb (s0 : Byte) (st : CycleStatus) : (s.endCycle s0 st).fb = s.fb := rfl
@[simp] theorem State.endCycle_dirty (s0 : Byte) (st : CycleStatus) : (s.endCycle s0 st).dirty = s.dirty := rfl
@[simp] theorem State.endCycle_key (s0 : Byte) (st : CycleStatus) : (s.endCycle s0 st).key = s.key := rfl
@[simp] theorem State.endCycle_mode (s0 : Byte) (st : CycleStatus) : (s.endCycle s0 st).mode = s.mode := rfl
@[simp] theorem State.endCycle_mem (s0 : Byte) (st : CycleStatus) : (s.endCycle s0 st).mem = s.mem := rfl
@[simp] theorem State.endCycle_second (s0 : Byte) (st : CycleStatus) : (s.endCycle s0 st).second = s.second := rfl
@[simp] theorem State.endCycle_fx1eSetsVf (s0 : Byte) (st : CycleStatus) : (s.endCycle s0 st).fx1eSetsVf = s.fx1eSetsVf := rfl
@[simp] theorem State.endCycle_status (s0 : Byte) (st : CycleStatus) : (s.endCycle s0 st).status = some st := rfl
@[simp] theorem State.endCycle_toneComplete (s0 : Byte) (st : CycleStatus) : (s.endCycle s0 st).toneComplete = (decide (s0.toNat ≠ 0) && decide (s.tick.sound.toNat = 0)) := rfl
@[simp] theorem State.endCycle_rndTaken (s0 : Byte) (st : CycleStatus) : (s.endCycle s0 st).rndTaken = s.rndTaken := rfl
@[simp] theorem State.endCycle_now (s0 : Byte) (st : CycleStatus) : (s.endCycle s0 st).now = s.now := rfl
@[simp] theorem State.endCycle_rnd (s0 : Byte) (st : CycleStatus) : (s.endCycle s0 st).rnd = s.rnd := rfl
@[simp] theorem State.endCycle_requests (s0 : Byte) (st : CycleStatus) : (s.endCycle s0 st).requests = s.requests := rfl
@[simp] theorem State.endCycle_cycles (s0 : Byte) (st : CycleStatus) : (s.endCycle s0 st).cycles = s.cycles := rfl

end Sys2Proof.Machine
end

