-- ==== Sys2Proof/Laws/Ops.lean ====
section
/-! SUPPORT. One law per shared operation over registers, stack, framebuffer and keypad, and the values of the operand
and flag functions as natural numbers. -/

namespace Sys2Proof.Machine

/-! ## Registers -/

@[simp] theorem State.reg_setReg (s : State) (x r : RegIdx) (b : Byte) :
    (s.setReg x b).reg r = if r = x then b else s.reg r := by
  unfold State.reg State.setReg
  by_cases h : r = x
  · subst h; simp
  · have hx : x.val ≠ r.val := fun e => h (Fin.ext e.symm)
    simp [h, Vector.getElem_set_ne _ _ hx]

@[simp] theorem State.reg_setFlag (s : State) (c : Bool) (r : RegIdx) :
    (s.setFlag c).reg r = if r = regVF then flagByte c else s.reg r := State.reg_setReg s regVF r (flagByte c)

@[simp] theorem State.reg_act (s : State) (a : PcAction) (r : RegIdx) : (s.act a).reg r = s.reg r := rfl

@[simp] theorem State.reg_setI (s : State) (w : Word) (r : RegIdx) : (s.setI w).reg r = s.reg r := rfl

/-- `V[x]` depends on the register file alone. -/
theorem State.reg_congr {s t : State} (h : s.v = t.v) (r : RegIdx) : s.reg r = t.reg r := by
  unfold State.reg
  rw [h]

/-- Registers `x ..` take the bytes, in order, and the others keep their value (R144). -/
theorem getElem_setRegsFrom (v : Vector Byte 16) (x : Nat) (bytes : List Byte) (r : Nat) (hr : r < 16) :
    (setRegsFrom v x bytes)[r] = if x ≤ r ∧ r < x + bytes.length then bytes.getD (r - x) 0 else v[r] := by
  induction bytes generalizing v x with
  | nil => simp only [setRegsFrom, List.length_nil, Nat.add_zero]; rw [if_neg (by omega)]
  | cons b rest ih =>
    rw [setRegsFrom, ih]
    simp only [List.length_cons]
    rcases Nat.lt_trichotomy r x with h | h | h
    · rw [if_neg (by omega), if_neg (by omega)]
      split
      · rw [Vector.getElem_set_ne _ _ (by omega)]
      · rfl
    · subst h
      rw [if_neg (by omega), if_pos (by omega)]
      simp [hr]
    · by_cases hc : r < x + (rest.length + 1)
      · rw [if_pos (by omega), if_pos (by omega), show r - x = (r - (x + 1)) + 1 by omega]
        simp
      · rw [if_neg (by omega), if_neg (by omega)]
        split
        · rw [Vector.getElem_set_ne _ _ (by omega)]
        · rfl

@[simp] theorem State.length_regsUpTo (s : State) (x : RegIdx) : (s.regsUpTo x).length = x.val + 1 := by
  simp [State.regsUpTo]

/-- Entry `k` of V0..Vx is `V[k]` (R143). -/
theorem State.getD_regsUpTo (s : State) (x r : RegIdx) (h : r.val ≤ x.val) :
    (s.regsUpTo x).getD r.val 0 = s.reg r := by
  have hr : r.val < x.val + 1 := by omega
  simp [State.regsUpTo, State.reg, List.getD_eq_getElem?_getD, hr]

/-! ## The stack -/

/-- A push succeeds exactly when there is room, and then writes one slot and SP (R27). -/
theorem State.push_eq_some {s t : State} {w : Word} (h : s.push w = some t) :
    ∃ hs : s.sp.val < Config.stackCapacity,
      t = { s with stack := s.stack.set s.sp.val w hs, sp := ⟨s.sp.val + 1, Nat.succ_lt_succ hs⟩ } := by
  unfold State.push at h
  split at h
  · exact ⟨‹_›, (Option.some.inj h).symm⟩
  · cases h

theorem State.push_eq_none {s : State} {w : Word} : s.push w = none ↔ s.sp.val = Config.stackCapacity := by
  unfold State.push
  have := s.sp.isLt
  split <;> simp <;> omega

/-- A pop succeeds exactly when there is an entry, and then changes SP alone (R28). -/
theorem State.pop_eq_some {s t : State} {w : Word} (h : s.pop = some (w, t)) :
    0 < s.sp.val ∧ ∃ hi : s.sp.val - 1 < Config.stackCapacity, w = s.stack[s.sp.val - 1] ∧
      t = { s with sp := ⟨s.sp.val - 1, Nat.lt_succ_of_lt hi⟩ } := by
  unfold State.pop at h
  split at h
  · rename_i hs
    have e := Option.some.inj h
    exact ⟨hs, by have := s.sp.isLt; omega, (congrArg Prod.fst e).symm, (congrArg Prod.snd e).symm⟩
  · cases h

theorem State.pop_eq_none {s : State} : s.pop = none ↔ s.sp.val = 0 := by
  unfold State.pop
  split
  · simp only [reduceCtorEq, false_iff]
    exact Nat.pos_iff_ne_zero.1 ‹_›
  · simp only [true_iff]
    exact Nat.eq_zero_of_not_pos ‹_›

/-! ## The framebuffer -/

@[simp] theorem Framebuffer.pixel_clear (row : Fin Config.displayH) (col : Fin Config.displayW) :
    Framebuffer.pixel Framebuffer.clear row col = false := by
  simp [Framebuffer.pixel, Framebuffer.clear]

/-- A toggle turns one pixel over and leaves the others. -/
theorem Framebuffer.pixel_toggle (fb : Framebuffer) (row r : Fin Config.displayH) (col c : Fin Config.displayW) :
    Framebuffer.pixel (Framebuffer.toggle fb row col) r c =
      if r = row ∧ c = col then !(Framebuffer.pixel fb r c) else Framebuffer.pixel fb r c := by
  unfold Framebuffer.pixel Framebuffer.toggle
  by_cases hr : r = row
  · subst hr
    by_cases hc : c = col
    · subst hc; simp [Framebuffer.pixel]
    · have hn : col.val ≠ c.val := fun e => hc (Fin.ext e.symm)
      simp [hc, Vector.getElem_set_ne _ _ hn]
  · have hn : row.val ≠ r.val := fun e => hr (Fin.ext e.symm)
    simp [hr, Vector.getElem_set_ne _ _ hn]

/-- Two framebuffers with equal pixels are equal. -/
theorem Framebuffer.ext_pixel {a b : Framebuffer}
    (h : ∀ row col, Framebuffer.pixel a row col = Framebuffer.pixel b row col) : a = b := by
  apply Vector.ext
  intro r hr
  apply Vector.ext
  intro c hc
  exact h ⟨r, hr⟩ ⟨c, hc⟩

/-! ## The keypad latch -/

/-- The lowest pressed key is pressed, and no lower one is (R99). -/
theorem lowestPressed_eq_some {key : BitVec 16} {k : Nat} :
    lowestPressed key = some k ↔ k < 16 ∧ keyPressed key k = true ∧ ∀ j, j < k → keyPressed key j = false := by
  unfold lowestPressed
  rw [List.find?_range_eq_some]
  simp
  tauto

theorem lowestPressed_eq_none {key : BitVec 16} :
    lowestPressed key = none ↔ ∀ k, k < 16 → keyPressed key k = false := by
  simp [lowestPressed]

/-- What each port write does to each key (R52). -/
theorem keyPressed_keyAfterWrite (key : BitVec 16) (w : PortWrite) (j : KeyIdx) :
    keyPressed (keyAfterWrite key w) j.val =
      match w with
      | .keySet k => if j = k then true else keyPressed key j.val
      | .keyClear k => if j = k then false else keyPressed key j.val
      | .keyWriteAll b => b.getLsbD j.val
      | .dirtyClear => keyPressed key j.val := by
  have one : ∀ k : KeyIdx, (1#16 <<< k.val).getLsbD j.val = decide (j = k) := by
    intro k
    rw [BitVec.getLsbD_shiftLeft, BitVec.getLsbD_one]
    simp only [j.isLt, Fin.ext_iff]
    by_cases h : j.val < k.val
    · simp [h, show ¬ j.val = k.val by omega]
    · simp [h]; omega
  cases w with
  | keySet k =>
    simp only [keyPressed, keyAfterWrite, BitVec.getLsbD_or, one]
    by_cases h : j = k <;> simp [h]
  | keyClear k =>
    simp only [keyPressed, keyAfterWrite, BitVec.getLsbD_and, BitVec.getLsbD_not, one, j.isLt]
    by_cases h : j = k <;> simp [h]
  | keyWriteAll b => rfl
  | dirtyClear => rfl

/-! ## Values of operands and flags -/

theorem flagByte_zero_or_one (c : Bool) : flagByte c = 0 ∨ flagByte c = 1 := by
  cases c <;> simp [flagByte]

@[simp] theorem toNat_zext16 (nnn : BitVec 12) : (zext16 nnn).toNat = nnn.toNat := by
  have := nnn.isLt
  simp [zext16]
  omega

@[simp] theorem toNat_indexedTarget (nnn : BitVec 12) (b : Byte) :
    (indexedTarget nnn b).toNat = nnn.toNat + b.toNat := by
  have := nnn.isLt
  have := b.isLt
  simp [indexedTarget]
  omega

@[simp] theorem toNat_glyphAddr (b : Byte) : (glyphAddr b).toNat = 5 * b.toNat := by
  have := b.isLt
  simp [glyphAddr]
  omega

@[simp] theorem toNat_indexSum (i : Word) (b : Byte) : (indexSum i b).toNat = (i.toNat + b.toNat) % 4096 := by
  simp [indexSum]
  omega

@[simp] theorem toNat_sum8 (a b : Byte) : (sum8 a b).toNat = (a.toNat + b.toNat) % 256 := by
  simp [sum8]

@[simp] theorem toNat_diff8 (a b : Byte) : (diff8 a b).toNat = (a.toNat + 256 - b.toNat) % 256 := by
  simp [diff8]

@[simp] theorem toNat_half8 (a : Byte) : (half8 a).toNat = a.toNat / 2 := by
  have := a.isLt
  simp [half8]
  omega

@[simp] theorem toNat_double8 (a : Byte) : (double8 a).toNat = a.toNat * 2 % 256 := by
  simp [double8]

theorem shiftedOutRight_eq (a : Byte) : shiftedOutRight a = decide (a.toNat % 2 = 1) := by
  simp [shiftedOutRight, BitVec.getLsbD, Nat.testBit_zero]

theorem shiftedOutLeft_eq (a : Byte) : shiftedOutLeft a = decide (128 ≤ a.toNat) := by
  have := a.isLt
  simp only [shiftedOutLeft, BitVec.getLsbD, Nat.testBit_eq_decide_div_mod_eq]
  congr 1
  apply propext
  omega

/-- The digits of Fx33 are digits of the value (R142). -/
theorem bcdDigits_value (a : Byte) :
    (bcdDigits a).map BitVec.toNat = [a.toNat / 100, a.toNat / 10 % 10, a.toNat % 10] := by
  have := a.isLt
  simp [bcdDigits]
  omega

end Sys2Proof.Machine
end

