-- ==== Sys2Proof/Laws/Draw.lean ====
section
/-! SUPPORT. What the two loops of a draw do to each pixel and to the collision flag (R145 to R148). -/

namespace Sys2Proof.Machine

/-- The columns of one sprite row are distinct (R147). -/
theorem spriteCol_inj {x0 : Byte} {j k : Nat} (hj : j < 8) (hk : k < 8) (h : spriteCol x0 j = spriteCol x0 k) :
    j = k := by
  have h' := congrArg Fin.val h
  simp only [spriteCol] at h'
  omega

/-- The rows of one sprite are distinct (R147). -/
theorem spriteRow_inj {y0 : Byte} {r q : Nat} (hr : r < 32) (hq : q < 32) (h : spriteRow y0 r = spriteRow y0 q) :
    r = q := by
  have h' := congrArg Fin.val h
  simp only [spriteRow] at h'
  omega

/-- Pixel `(r, c)` is under a 1 bit of the row byte `b`, among the column offsets `js`. -/
def litInRow (b : Byte) (row : Fin Config.displayH) (x0 : Byte) (js : List Nat) (r : Fin Config.displayH)
    (c : Fin Config.displayW) : Prop :=
  r = row ∧ ∃ j ∈ js, spriteBit b j = true ∧ c = spriteCol x0 j

/-- Pixel `(r, c)` is under a 1 bit of a sprite whose bytes start at sprite row `q`. -/
def litInRows (x0 y0 : Byte) (q : Nat) (bytes : List Byte) (r : Fin Config.displayH) (c : Fin Config.displayW) : Prop :=
  ∃ k, ∃ h : k < bytes.length, litInRow bytes[k] (spriteRow y0 (q + k)) x0 (List.range 8) r c

/-- A canvas `c'` is `c` drawn with the pixels of `lit`: those turn over, the others stay, and the flag is raised by a
pixel that was 1. -/
structure Drawn (lit : Fin Config.displayH → Fin Config.displayW → Prop) (c c' : Canvas) : Prop where
  under : ∀ row col, lit row col → Framebuffer.pixel c'.fb row col = !(Framebuffer.pixel c.fb row col)
  beside : ∀ row col, ¬ lit row col → Framebuffer.pixel c'.fb row col = Framebuffer.pixel c.fb row col
  hit : c'.hit = true ↔ c.hit = true ∨ ∃ row col, lit row col ∧ Framebuffer.pixel c.fb row col = true

theorem Drawn.refl {lit : Fin Config.displayH → Fin Config.displayW → Prop} (h : ∀ row col, ¬ lit row col)
    (c : Canvas) : Drawn lit c c where
  under row col hl := absurd hl (h row col)
  beside _ _ _ := rfl
  hit := by simp [h]

/-- Two draws of disjoint pixels are one draw of their union. -/
theorem Drawn.trans {p q lit : Fin Config.displayH → Fin Config.displayW → Prop} {a b c : Canvas}
    (hp : Drawn p a b) (hq : Drawn q b c) (hd : ∀ row col, p row col → ¬ q row col)
    (hu : ∀ row col, lit row col ↔ p row col ∨ q row col) : Drawn lit a c where
  under row col hl := by
    rcases (hu row col).1 hl with h | h
    · rw [hq.beside _ _ (hd _ _ h), hp.under _ _ h]
    · rw [hq.under _ _ h, hp.beside _ _ (fun h' => hd _ _ h' h)]
  beside row col hl := by
    rw [hu, not_or] at hl
    rw [hq.beside _ _ hl.2, hp.beside _ _ hl.1]
  hit := by
    rw [hq.hit, hp.hit]
    constructor
    · rintro ((h | ⟨r, k, h, e⟩) | ⟨r, k, h, e⟩)
      · exact .inl h
      · exact .inr ⟨r, k, (hu r k).2 (.inl h), e⟩
      · exact .inr ⟨r, k, (hu r k).2 (.inr h), by rwa [hp.beside _ _ (fun h' => hd _ _ h' h)] at e⟩
    · rintro (h | ⟨r, k, h, e⟩)
      · exact .inl (.inl h)
      · rcases (hu r k).1 h with h | h
        · exact .inl (.inr ⟨r, k, h, e⟩)
        · exact .inr ⟨r, k, h, by rwa [hp.beside _ _ (fun h' => hd _ _ h' h)]⟩

theorem drawBit_drawn (bit : Bool) (row : Fin Config.displayH) (col : Fin Config.displayW) (c : Canvas) :
    Drawn (fun r k => bit = true ∧ r = row ∧ k = col) c (drawBit bit row col c) := by
  cases bit with
  | false => exact Drawn.refl (by simp) c
  | true =>
    refine ⟨?_, ?_, ?_⟩
    · intro r k h
      simp [drawBit, Framebuffer.pixel_toggle, h.2]
    · intro r k h
      have h' : ¬ (r = row ∧ k = col) := fun e => h ⟨rfl, e⟩
      simp only [drawBit, if_true, Framebuffer.pixel_toggle, if_neg h']
    · simp [drawBit, collides]

/-- The inner loop draws exactly the lit pixels of its row (R145, R147). -/
theorem drawRow_drawn (b : Byte) (row : Fin Config.displayH) (x0 : Byte) (js : List Nat) (hn : js.Nodup)
    (h8 : ∀ j ∈ js, j < 8) (c : Canvas) : Drawn (litInRow b row x0 js) c (drawRow b row x0 js c) := by
  induction js generalizing c with
  | nil => exact Drawn.refl (by simp [litInRow]) c
  | cons j rest ih =>
    have hn' := List.nodup_cons.1 hn
    refine Drawn.trans (drawBit_drawn _ _ _ c) (ih hn'.2 (fun k hk => h8 k (List.mem_cons_of_mem _ hk)) _) ?_ ?_
    · rintro r k ⟨_, _, rfl⟩ ⟨_, i, hi, _, e⟩
      exact hn'.1 (spriteCol_inj (h8 j (List.mem_cons_self)) (h8 i (List.mem_cons_of_mem _ hi)) e ▸ hi)
    · intro r k
      simp only [litInRow, List.mem_cons, exists_eq_or_imp]
      tauto

/-- The outer loop draws exactly the lit pixels of the sprite, wrapped on both axes (R146, R147). -/
theorem drawRows_drawn (x0 y0 : Byte) (q : Nat) (bytes : List Byte) (h : q + bytes.length ≤ 32) (c : Canvas) :
    Drawn (litInRows x0 y0 q bytes) c (drawRows x0 y0 q bytes c) := by
  induction bytes generalizing q c with
  | nil => exact Drawn.refl (by simp [litInRows]) c
  | cons b rest ih =>
    simp only [List.length_cons] at h
    refine Drawn.trans (drawRow_drawn b (spriteRow y0 q) x0 (List.range 8) List.nodup_range (by simp) c)
      (ih (q + 1) (by omega) _) ?_ ?_
    · rintro r k ⟨hr, _⟩ ⟨i, hi, hr', _⟩
      have := spriteRow_inj (by omega) (by omega) (hr.symm.trans hr')
      omega
    · intro r k
      constructor
      · rintro ⟨i, hi, hl⟩
        cases i with
        | zero => exact .inl hl
        | succ i =>
          refine .inr ⟨i, by simpa using hi, ?_⟩
          rwa [List.getElem_cons_succ, show q + (i + 1) = q + 1 + i by omega] at hl
      · rintro (hl | ⟨i, hi, hl⟩)
        · exact ⟨0, by simp, hl⟩
        · refine ⟨i + 1, by simpa using hi, ?_⟩
          rwa [List.getElem_cons_succ, show q + (i + 1) = q + 1 + i by omega]

/-! ## The order of the toggles (R147) -/

theorem drawPixels_append (ps qs : List (Fin Config.displayH × Fin Config.displayW)) (c : Canvas) :
    drawPixels (ps ++ qs) c = drawPixels qs (drawPixels ps c) := by
  induction ps generalizing c with
  | nil => rfl
  | cons p rest ih => exact ih _

/-- The inner loop toggles the pixels under the 1 bits of its row, in order. -/
theorem drawRow_eq_drawPixels (b : Byte) (row : Fin Config.displayH) (x0 : Byte) (js : List Nat) (c : Canvas) :
    drawRow b row x0 js c = drawPixels ((js.filter (spriteBit b)).map (fun j => (row, spriteCol x0 j))) c := by
  induction js generalizing c with
  | nil => rfl
  | cons j rest ih => cases h : spriteBit b j <;> simp [drawRow, drawBit, drawPixels, h, ih]

/-- The loops of R151 toggle `spritePixels`, in order. -/
theorem drawRows_eq_drawPixels (x0 y0 : Byte) (r : Nat) (bytes : List Byte) (c : Canvas) :
    drawRows x0 y0 r bytes c = drawPixels (spritePixels x0 y0 r bytes) c := by
  induction bytes generalizing r c with
  | nil => rfl
  | cons b rest ih => rw [drawRows, ih, drawRow_eq_drawPixels, spritePixels, drawPixels_append]

/-- Two toggles commute, the collision flag included. -/
theorem drawBit_comm (p q : Fin Config.displayH × Fin Config.displayW) (c : Canvas) :
    drawBit true q.1 q.2 (drawBit true p.1 p.2 c) = drawBit true p.1 p.2 (drawBit true q.1 q.2 c) := by
  by_cases hpq : p = q
  · rw [hpq]
  · have hne : ¬ (q.1 = p.1 ∧ q.2 = p.2) := fun h => hpq (Prod.ext h.1.symm h.2.symm)
    have hne' : ¬ (p.1 = q.1 ∧ p.2 = q.2) := fun h => hpq (Prod.ext h.1 h.2)
    simp only [drawBit, if_true, Canvas.mk.injEq]
    constructor
    · apply Framebuffer.ext_pixel
      intro r k
      simp only [Framebuffer.pixel_toggle]
      split <;> split <;> rfl
    · simp only [collides, Framebuffer.pixel_toggle, if_neg hne, if_neg hne']
      rw [Bool.or_assoc, Bool.or_assoc, Bool.or_comm (Framebuffer.pixel c.fb p.1 p.2)]

/-- The order in which toggles are applied does not change the result. -/
theorem drawPixels_perm {ps qs : List (Fin Config.displayH × Fin Config.displayW)} (h : ps.Perm qs) (c : Canvas) :
    drawPixels ps c = drawPixels qs c := by
  induction h generalizing c with
  | nil => rfl
  | cons p _ ih => exact ih _
  | swap p q rest => exact congrArg (drawPixels rest) (drawBit_comm q p c)
  | trans _ _ ih₁ ih₂ => exact (ih₁ c).trans (ih₂ c)

/-- `spritePixels` are the pixels under 1 bits. -/
theorem mem_spritePixels {x0 y0 : Byte} {q : Nat} {bytes : List Byte} {p : Fin Config.displayH × Fin Config.displayW} :
    p ∈ spritePixels x0 y0 q bytes ↔ litInRows x0 y0 q bytes p.1 p.2 := by
  induction bytes generalizing q with
  | nil => simp [spritePixels, litInRows]
  | cons b rest ih =>
    simp only [spritePixels, List.mem_append, ih, List.mem_map, List.mem_filter]
    constructor
    · rintro (⟨j, ⟨hj, hb⟩, rfl⟩ | ⟨i, hi, hl⟩)
      · exact ⟨0, by simp, rfl, j, hj, hb, rfl⟩
      · refine ⟨i + 1, by simpa using hi, ?_⟩
        rwa [List.getElem_cons_succ, show q + (i + 1) = q + 1 + i by omega]
    · rintro ⟨i, hi, hl⟩
      cases i with
      | zero =>
        obtain ⟨hr, j, hj, hb, hc⟩ := hl
        exact .inl ⟨j, ⟨hj, hb⟩, Prod.ext hr.symm hc.symm⟩
      | succ i =>
        refine .inr ⟨i, by simpa using hi, ?_⟩
        rwa [List.getElem_cons_succ, show q + (i + 1) = q + 1 + i by omega] at hl

end Sys2Proof.Machine
end

