-- ==== Sys2Proof/Laws/Encoding.lean ====
section
/-! SUPPORT. The fields of a word built by each format (R87), and how the formats rebuild a word from its fields. -/

namespace Sys2Proof

@[simp] theorem regOfNibble_nibbleOfReg (x : RegIdx) : regOfNibble (nibbleOfReg x) = x := by
  apply Fin.ext
  simp [regOfNibble, nibbleOfReg]

@[simp] theorem nibbleOfReg_regOfNibble (b : BitVec 4) : nibbleOfReg (regOfNibble b) = b := by
  apply BitVec.eq_of_toNat_eq
  simp [regOfNibble, nibbleOfReg]

/-! ## Format NNN -/

@[simp] theorem fieldFamily_formatNNN (f : BitVec 4) (nnn : BitVec 12) :
    fieldFamily (formatNNN f nnn) = f := by
  apply BitVec.eq_of_getLsbD_eq
  intro i hi
  simp only [fieldFamily, formatNNN, BitVec.getLsbD_append, BitVec.getLsbD_extractLsb']
  simp [hi]

@[simp] theorem fieldNNN_formatNNN (f : BitVec 4) (nnn : BitVec 12) :
    fieldNNN (formatNNN f nnn) = nnn := by
  apply BitVec.eq_of_getLsbD_eq
  intro i hi
  simp only [fieldNNN, formatNNN, BitVec.getLsbD_append, BitVec.getLsbD_extractLsb']
  simp [hi]

theorem formatNNN_fields (op : Word) : formatNNN (fieldFamily op) (fieldNNN op) = op := by
  apply BitVec.eq_of_getLsbD_eq
  intro i hi
  simp only [fieldFamily, formatNNN, fieldNNN, BitVec.getLsbD_append, BitVec.getLsbD_extractLsb']
  by_cases h : i < 12
  · simp [h]
  · simp [h, show i - 12 < 4 by omega, show 12 + (i - 12) = i by omega]

/-! ## Format XKK -/

@[simp] theorem fieldFamily_formatXKK (f : BitVec 4) (x : RegIdx) (kk : Byte) :
    fieldFamily (formatXKK f x kk) = f := by
  apply BitVec.eq_of_getLsbD_eq
  intro i hi
  simp only [fieldFamily, formatXKK, BitVec.getLsbD_append, BitVec.getLsbD_extractLsb']
  simp [hi, show ¬ 12 + i < 8 by omega, show ¬ 12 + i - 8 < 4 by omega, show 12 + i - 8 - 4 = i by omega]

@[simp] theorem fieldX_formatXKK (f : BitVec 4) (x : RegIdx) (kk : Byte) :
    fieldX (formatXKK f x kk) = x := by
  have h : nibbleX (formatXKK f x kk) = nibbleOfReg x := by
    apply BitVec.eq_of_getLsbD_eq
    intro i hi
    simp only [nibbleX, formatXKK, BitVec.getLsbD_append, BitVec.getLsbD_extractLsb']
    simp [hi, show ¬ 8 + i < 8 by omega, show 8 + i - 8 = i by omega]
  simp [fieldX, h]

@[simp] theorem fieldKK_formatXKK (f : BitVec 4) (x : RegIdx) (kk : Byte) :
    fieldKK (formatXKK f x kk) = kk := by
  apply BitVec.eq_of_getLsbD_eq
  intro i hi
  simp only [fieldKK, formatXKK, BitVec.getLsbD_append, BitVec.getLsbD_extractLsb']
  simp [hi]

theorem formatXKK_fields (op : Word) : formatXKK (fieldFamily op) (fieldX op) (fieldKK op) = op := by
  apply BitVec.eq_of_getLsbD_eq
  intro i hi
  simp only [fieldFamily, formatXKK, fieldX, nibbleOfReg_regOfNibble, nibbleX, fieldKK, BitVec.getLsbD_append,
    BitVec.getLsbD_extractLsb']
  by_cases h : i < 8
  · simp [h]
  · by_cases h' : i - 8 < 4
    · simp [h, h', show 8 + (i - 8) = i by omega]
    · simp [h, h', show i - 8 - 4 < 4 by omega, show 12 + (i - 8 - 4) = i by omega]

/-! ## Formats XYF and XYN -/

@[simp] theorem fieldFamily_formatXYN (f : BitVec 4) (x y : RegIdx) (n : BitVec 4) :
    fieldFamily (formatXYN f x y n) = f := by
  apply BitVec.eq_of_getLsbD_eq
  intro i hi
  simp only [fieldFamily, formatXYN, BitVec.getLsbD_append, BitVec.getLsbD_extractLsb']
  simp [hi, show ¬ 12 + i < 4 by omega, show ¬ 12 + i - 4 < 4 by omega, show ¬ 12 + i - 4 - 4 < 4 by omega, show 12 + i - 4 - 4 - 4 = i by omega]

@[simp] theorem fieldX_formatXYN (f : BitVec 4) (x y : RegIdx) (n : BitVec 4) :
    fieldX (formatXYN f x y n) = x := by
  have h : nibbleX (formatXYN f x y n) = nibbleOfReg x := by
    apply BitVec.eq_of_getLsbD_eq
    intro i hi
    simp only [nibbleX, formatXYN, BitVec.getLsbD_append, BitVec.getLsbD_extractLsb']
    simp [hi, show ¬ 8 + i < 4 by omega, show ¬ 8 + i - 4 < 4 by omega, show 8 + i - 4 - 4 = i by omega]
  simp [fieldX, h]

@[simp] theorem fieldY_formatXYN (f : BitVec 4) (x y : RegIdx) (n : BitVec 4) :
    fieldY (formatXYN f x y n) = y := by
  have h : nibbleY (formatXYN f x y n) = nibbleOfReg y := by
    apply BitVec.eq_of_getLsbD_eq
    intro i hi
    simp only [nibbleY, formatXYN, BitVec.getLsbD_append, BitVec.getLsbD_extractLsb']
    simp [hi, show ¬ 4 + i < 4 by omega, show 4 + i - 4 = i by omega]
  simp [fieldY, h]

@[simp] theorem fieldN_formatXYN (f : BitVec 4) (x y : RegIdx) (n : BitVec 4) :
    fieldN (formatXYN f x y n) = n := by
  apply BitVec.eq_of_getLsbD_eq
  intro i hi
  simp only [fieldN, formatXYN, BitVec.getLsbD_append, BitVec.getLsbD_extractLsb']
  simp [hi]

theorem formatXYN_fields (op : Word) : formatXYN (fieldFamily op) (fieldX op) (fieldY op) (fieldN op) = op := by
  apply BitVec.eq_of_getLsbD_eq
  intro i hi
  simp only [fieldFamily, formatXYN, fieldX, fieldY, nibbleOfReg_regOfNibble, nibbleX, nibbleY, fieldN,
    BitVec.getLsbD_append, BitVec.getLsbD_extractLsb']
  by_cases h : i < 4
  · simp [h]
  · by_cases h' : i - 4 < 4
    · simp [h, h', show 4 + (i - 4) = i by omega]
    · by_cases h'' : i - 4 - 4 < 4
      · simp [h, h', h'', show 8 + (i - 4 - 4) = i by omega]
      · simp [h, h', h'', show i - 4 - 4 - 4 < 4 by omega, show 12 + (i - 4 - 4 - 4) = i by omega]

/-! ## Fields as numbers -/

theorem toNat_fieldFamily (op : Word) : (fieldFamily op).toNat = op.toNat / 4096 := by
  have := op.isLt
  simp [fieldFamily, BitVec.extractLsb'_toNat, Nat.shiftRight_eq_div_pow]
  omega

theorem toNat_fieldN (op : Word) : (fieldN op).toNat = op.toNat % 16 := by
  simp [fieldN, BitVec.extractLsb'_toNat]

theorem toNat_fieldKK (op : Word) : (fieldKK op).toNat = op.toNat % 256 := by
  simp [fieldKK, BitVec.extractLsb'_toNat]

/-- A word whose family is known is its own format NNN. -/
theorem formatNNN_of_family {op : Word} {k : Nat} (h : (fieldFamily op).toNat = k) :
    formatNNN (BitVec.ofNat 4 k) (fieldNNN op) = op := by
  rw [← h, BitVec.ofNat_toNat, BitVec.setWidth_eq, formatNNN_fields]

/-- A word whose family is known is its own format XKK. -/
theorem formatXKK_of_family {op : Word} {k : Nat} (h : (fieldFamily op).toNat = k) :
    formatXKK (BitVec.ofNat 4 k) (fieldX op) (fieldKK op) = op := by
  rw [← h, BitVec.ofNat_toNat, BitVec.setWidth_eq, formatXKK_fields]

/-- A word whose family and kk are known is its own format XFF. -/
theorem formatXKK_of_family_kk {op : Word} {k c : Nat} (h : (fieldFamily op).toNat = k)
    (hc : (fieldKK op).toNat = c) : formatXKK (BitVec.ofNat 4 k) (fieldX op) (BitVec.ofNat 8 c) = op := by
  rw [← hc, BitVec.ofNat_toNat, BitVec.setWidth_eq, formatXKK_of_family h]

/-- A word whose family and n are known is its own format XYF. -/
theorem formatXYN_of_family_n {op : Word} {k c : Nat} (h : (fieldFamily op).toNat = k)
    (hc : (fieldN op).toNat = c) : formatXYN (BitVec.ofNat 4 k) (fieldX op) (fieldY op) (BitVec.ofNat 4 c) = op := by
  rw [← hc, ← h, BitVec.ofNat_toNat, BitVec.ofNat_toNat, BitVec.setWidth_eq, BitVec.setWidth_eq, formatXYN_fields]

/-! ## A word as stored bytes (R67) -/

@[simp] theorem bytes_rebuild_word (op : Word) :
    (op.extractLsb' 8 8 ++ op.extractLsb' 0 8 : Word) = op := by
  apply BitVec.eq_of_getLsbD_eq
  intro i hi
  simp only [BitVec.getLsbD_append, BitVec.getLsbD_extractLsb']
  by_cases h : i < 8
  · simp [h]
  · simp [h, show i - 8 < 8 by omega, show 8 + (i - 8) = i by omega]

@[simp] theorem decode_bytesOfWord_append (op : Word) (rest : List Byte) :
    decode (bytesOfWord op ++ rest) = (decodeWord op).map (·, rest) := by
  simp only [bytesOfWord, List.cons_append, List.nil_append, decode, bytes_rebuild_word]
  cases decodeWord op <;> rfl

end Sys2Proof
end

