-- ==== Sys2Proof/Laws/Memory.lean ====
section
/-! SUPPORT. Memory: read after write, what a group of accesses reads and writes, and that every write keeps the
canonical form. -/

namespace Sys2Proof.Machine

/-! ## The canonical form -/

theorem Memory.wfFrom_cons {lo : Nat} {c : Host.Cell} {rest : Memory} :
    Memory.wfFrom lo (c :: rest) = true ↔
      lo ≤ c.1 ∧ c.1 < Config.memSize ∧ c.2 ≠ Memory.unlisted c.1 ∧ Memory.wfFrom (c.1 + 1) rest = true := by
  simp [Memory.wfFrom, and_assoc]

theorem Memory.wfFrom_mono {lo lo' : Nat} {m : Memory} (h : lo' ≤ lo) (hm : Memory.wfFrom lo m = true) :
    Memory.wfFrom lo' m = true := by
  cases m with
  | nil => rfl
  | cons c rest =>
    rw [Memory.wfFrom_cons] at hm ⊢
    exact ⟨h.trans hm.1, hm.2⟩

/-- An address below every listed one reads as unlisted. -/
theorem Memory.byteAt_below {lo a : Nat} {m : Memory} (hm : Memory.wfFrom lo m = true) (h : a < lo) :
    Memory.byteAt m a = Memory.unlisted a := by
  induction m generalizing lo with
  | nil => rfl
  | cons c rest ih =>
    rw [Memory.wfFrom_cons] at hm
    rw [Memory.byteAt, if_neg (by omega)]
    exact ih hm.2.2.2 (by omega)

theorem Memory.setByte_wfFrom {lo a : Nat} {b : Byte} {m : Memory} (hm : Memory.wfFrom lo m = true) (hlo : lo ≤ a)
    (ha : a < Config.memSize) : Memory.wfFrom lo (Memory.setByte m a b) = true := by
  induction m generalizing lo with
  | nil =>
    unfold Memory.setByte
    split
    · rfl
    · exact Memory.wfFrom_cons.2 ⟨hlo, ha, ‹_›, rfl⟩
  | cons c rest ih =>
    have hc := Memory.wfFrom_cons.1 hm
    unfold Memory.setByte
    split
    · split
      · exact hm
      · exact Memory.wfFrom_cons.2 ⟨hlo, ha, ‹_›, Memory.wfFrom_cons.2 ⟨by omega, hc.2⟩⟩
    · split
      · split
        · exact Memory.wfFrom_mono (by omega) hc.2.2.2
        · exact Memory.wfFrom_cons.2 ⟨hlo, ha, ‹_›, by simpa [‹a = c.1›] using hc.2.2.2⟩
      · exact Memory.wfFrom_cons.2 ⟨hc.1, hc.2.1, hc.2.2.1, ih hc.2.2.2 (by omega)⟩

/-- A write inside the address space keeps the canonical form. -/
theorem Memory.setByte_wf {a : Nat} {b : Byte} {m : Memory} (hm : Memory.wf m = true) (ha : a < Config.memSize) :
    Memory.wf (Memory.setByte m a b) = true :=
  Memory.setByte_wfFrom hm (Nat.zero_le a) ha

theorem Memory.setBytes_wf {a : Nat} {bytes : List Byte} {m : Memory} (hm : Memory.wf m = true)
    (ha : a + bytes.length ≤ Config.memSize) : Memory.wf (Memory.setBytes m a bytes) = true := by
  induction bytes generalizing a m with
  | nil => exact hm
  | cons b rest ih =>
    simp only [List.length_cons] at ha
    exact ih (Memory.setByte_wf hm (by omega)) (by omega)

/-! ## Reading what was written -/

theorem Memory.byteAt_setByte_from {lo a c : Nat} {b : Byte} {m : Memory} (hm : Memory.wfFrom lo m = true) :
    Memory.byteAt (Memory.setByte m a b) c = if c = a then b else Memory.byteAt m c := by
  induction m generalizing lo with
  | nil =>
    unfold Memory.setByte
    split
    · by_cases hc : c = a
      · simp [Memory.byteAt, hc, ‹b = _›]
      · simp [Memory.byteAt, hc]
    · by_cases hc : c = a
      · simp [Memory.byteAt, hc]
      · simp [Memory.byteAt, hc, Ne.symm hc]
  | cons e rest ih =>
    have he := Memory.wfFrom_cons.1 hm
    have below : ∀ d, d ≤ e.1 → Memory.byteAt rest d = Memory.unlisted d := fun d hd =>
      Memory.byteAt_below he.2.2.2 (by omega)
    unfold Memory.setByte
    split
    · split
      · by_cases hc : c = a
        · subst hc
          rw [if_pos rfl, Memory.byteAt, if_neg (by omega), below c (by omega), ‹b = _›]
        · rw [if_neg hc]
      · by_cases hc : c = a
        · subst hc
          simp [Memory.byteAt]
        · simp [Memory.byteAt, hc, Ne.symm hc]
    · split
      · have hae : a = e.1 := ‹_›
        split
        · by_cases hc : c = a
          · subst hc
            rw [if_pos rfl, below c (by omega), ‹b = _›]
          · rw [if_neg hc, Memory.byteAt, if_neg (by omega)]
        · by_cases hc : c = a
          · subst hc
            simp [Memory.byteAt]
          · simp [Memory.byteAt, hc, Ne.symm hc, show ¬ e.1 = c by omega]
      · simp only [Memory.byteAt]
        by_cases hc : e.1 = c
        · simp [hc, show ¬ c = a by omega]
        · simp only [if_neg hc]
          exact ih he.2.2.2

/-- Read after write: the written byte reads as written, and every other byte as before (R73, R75). -/
theorem Memory.byteAt_setByte {a c : Nat} {b : Byte} {m : Memory} (hm : Memory.wf m = true) :
    Memory.byteAt (Memory.setByte m a b) c = if c = a then b else Memory.byteAt m c :=
  Memory.byteAt_setByte_from hm

/-- A group write: byte `c` is the one written there, or as before outside the group. -/
theorem Memory.byteAt_setBytes {a c : Nat} {bytes : List Byte} {m : Memory} (hm : Memory.wf m = true)
    (ha : a + bytes.length ≤ Config.memSize) :
    Memory.byteAt (Memory.setBytes m a bytes) c =
      if a ≤ c ∧ c < a + bytes.length then bytes.getD (c - a) 0 else Memory.byteAt m c := by
  induction bytes generalizing a m with
  | nil => simp only [Memory.setBytes, List.length_nil, Nat.add_zero]; rw [if_neg (by omega)]
  | cons b rest ih =>
    simp only [List.length_cons] at ha ⊢
    have hw := Memory.setByte_wf (b := b) hm (show a < Config.memSize by omega)
    rw [Memory.setBytes, ih hw (by omega), Memory.byteAt_setByte hm]
    rcases Nat.lt_trichotomy c a with h | h | h
    · rw [if_neg (by omega), if_neg (by omega), if_neg (by omega)]
    · subst h
      rw [if_neg (by omega), if_pos rfl, if_pos (by omega)]
      simp
    · by_cases hc : c < a + (rest.length + 1)
      · rw [if_pos (by omega), if_pos (by omega), show c - a = (c - (a + 1)) + 1 by omega]
        simp
      · rw [if_neg (by omega), if_neg (by omega), if_neg (by omega)]

/-! ## Groups -/

@[simp] theorem Memory.length_bytesFrom (mem : Memory) (a m : Nat) : (Memory.bytesFrom mem a m).length = m := by
  induction m generalizing a with
  | zero => rfl
  | succ m ih => simp [Memory.bytesFrom, ih]

theorem Memory.getElem_bytesFrom (mem : Memory) (a m k : Nat) (h : k < (Memory.bytesFrom mem a m).length) :
    (Memory.bytesFrom mem a m)[k] = Memory.byteAt mem (a + k) := by
  induction m generalizing a k with
  | zero => simp at h
  | succ m ih =>
    cases k with
    | zero => rfl
    | succ k => simp only [Memory.bytesFrom, List.getElem_cons_succ, ih]; rw [show a + 1 + k = a + (k + 1) by omega]

theorem inBounds_iff {a m : Nat} : inBounds a m = true ↔ m = 0 ∨ a + m ≤ Config.memSize := by
  simp [inBounds]

/-- A load gives the whole group exactly when the check of R65 holds. -/
theorem Memory.load_eq_some {mem : Memory} {a m : Nat} {bytes : List Byte} :
    Memory.load mem a m = some bytes ↔ inBounds a m = true ∧ bytes = Memory.bytesFrom mem a m := by
  unfold Memory.load
  split
  · simp only [*, Option.some.injEq, true_and]
    exact eq_comm
  · simp [*]

theorem Memory.load_eq_none {mem : Memory} {a m : Nat} : Memory.load mem a m = none ↔ inBounds a m = false := by
  unfold Memory.load
  split <;> simp_all

/-- A store writes the whole group exactly when the check of R65 holds. -/
theorem Memory.store_eq_some {mem mem' : Memory} {a : Nat} {bytes : List Byte} :
    Memory.store mem a bytes = some mem' ↔
      inBounds a bytes.length = true ∧ mem' = Memory.setBytes mem a bytes := by
  unfold Memory.store
  split
  · simp only [*, Option.some.injEq, true_and]
    exact eq_comm
  · simp [*]

theorem Memory.store_eq_none {mem : Memory} {a : Nat} {bytes : List Byte} :
    Memory.store mem a bytes = none ↔ inBounds a bytes.length = false := by
  unfold Memory.store
  split <;> simp_all

/-- A checked store keeps the canonical form. -/
theorem Memory.store_wf {mem mem' : Memory} {a : Nat} {bytes : List Byte} (hm : Memory.wf mem = true)
    (h : Memory.store mem a bytes = some mem') : Memory.wf mem' = true := by
  obtain ⟨hb, rfl⟩ := Memory.store_eq_some.1 h
  rcases inBounds_iff.1 hb with h0 | h1
  · rw [List.length_eq_zero_iff.1 h0]
    exact hm
  · exact Memory.setBytes_wf hm h1

end Sys2Proof.Machine
end

