-- ==== Sys2Proof/Laws/Exec.lean ====
section
/-! SUPPORT. The meanings that check something before they act, one equation for each way the check goes, and that every
instruction answers a next state. -/

namespace Sys2Proof.Machine

/-! ## Stack -/

theorem execCall_room {s : State} (nnn : BitVec 12) (h : s.sp.val < Config.stackCapacity) :
    execCall nnn s = .next (State.act { s with
      stack := s.stack.set s.sp.val (s.pc + 2) h
      sp := ⟨s.sp.val + 1, Nat.succ_lt_succ h⟩ } (.set (zext16 nnn))) := by
  simp only [execCall, State.push, dif_pos h]

theorem execCall_full {s : State} (nnn : BitVec 12) (h : s.sp.val = Config.stackCapacity) :
    execCall nnn s = .next (s.raiseIn .stackOverflow (.call nnn)) := by
  simp only [execCall, State.push_eq_none.2 h]

theorem execRet_entry {s : State} {j : Nat} (h : s.sp.val = j + 1) (hj : j < Config.stackCapacity) :
    execRet s = .next (State.act { s with sp := ⟨j, Nat.lt_succ_of_lt hj⟩ } (.set s.stack[j])) := by
  simp only [execRet, State.pop, h, Nat.add_sub_cancel, dif_pos (Nat.succ_pos j)]

theorem execRet_empty {s : State} (h : s.sp.val = 0) : execRet s = .next (s.raiseIn .stackUnderflow .ret) := by
  simp only [execRet, State.pop_eq_none.2 h]

/-! ## Memory at I (R65, R66) -/

theorem storeAtI_inside {i : Instr} {s : State} {bytes : List Byte}
    (h : s.dataAddr + bytes.length ≤ Config.memSize) :
    storeAtI i bytes s = .next (State.act { s with mem := Memory.setBytes s.mem s.dataAddr bytes } .advance) := by
  unfold storeAtI Memory.store
  rw [if_pos (inBounds_iff.2 (.inr h))]

theorem storeAtI_outside {i : Instr} {s : State} {bytes : List Byte} (h0 : bytes ≠ [])
    (h : Config.memSize < s.dataAddr + bytes.length) :
    storeAtI i bytes s = .next (s.raiseIn .memoryOutOfBounds i) := by
  unfold storeAtI Memory.store
  rw [if_neg]
  intro hb
  rcases inBounds_iff.1 hb with h1 | h1
  · exact h0 (List.length_eq_zero_iff.1 h1)
  · omega

theorem execLdVxMem_inside {s : State} {x : RegIdx} (h : s.dataAddr + x.val ≤ 0xFFF) :
    execLdVxMem x s = .next (State.act
      { s with v := setRegsFrom s.v 0 (Memory.bytesFrom s.mem s.dataAddr (x.val + 1)) } .advance) := by
  have hb : inBounds s.dataAddr (x.val + 1) = true := inBounds_iff.2 (.inr (by simp only [Config.memSize]; omega))
  simp only [execLdVxMem, Memory.load_eq_some.2 ⟨hb, rfl⟩]

theorem execLdVxMem_outside {s : State} {x : RegIdx} (h : 0xFFF < s.dataAddr + x.val) :
    execLdVxMem x s = .next (s.raiseIn .memoryOutOfBounds (.ldVxMem x)) := by
  have hb : inBounds s.dataAddr (x.val + 1) = false := by
    simp only [inBounds, Config.memSize, decide_eq_false_iff_not]
    omega
  simp only [execLdVxMem, Memory.load_eq_none.2 hb]

/-- The registers of `execLdVxMem_inside`: V0..Vx from memory, the others as before (R144). -/
theorem reg_loaded (s : State) (x r : RegIdx) (a : Nat) :
    (State.act { s with v := setRegsFrom s.v 0 (Memory.bytesFrom s.mem a (x.val + 1)) } .advance).reg r =
      if r.val ≤ x.val then Memory.byteAt s.mem (a + r.val) else s.reg r := by
  rw [State.reg_act]
  unfold State.reg
  simp only [getElem_setRegsFrom _ _ _ r.val r.isLt, Memory.length_bytesFrom]
  by_cases h : r.val ≤ x.val
  · have hl : r.val < (Memory.bytesFrom s.mem a (x.val + 1)).length := by simp; omega
    rw [if_pos (by omega), if_pos h, Nat.sub_zero, List.getD_eq_getElem _ _ hl, Memory.getElem_bytesFrom]
  · rw [if_neg (by omega), if_neg h]

/-- The canvas of a draw of `n` rows at I (R151). -/
def drawnCanvas (x y : RegIdx) (n : Nat) (s : State) : Canvas :=
  drawRows (s.reg x) (s.reg y) 0 (Memory.bytesFrom s.mem s.dataAddr n) ⟨s.fb, false⟩

theorem execDrw_inside {s : State} {x y : RegIdx} {n : Nat} (h : n = 0 ∨ s.dataAddr + n ≤ Config.memSize) :
    execDrw x y n s = .next (State.act (State.setFlag
      { s with fb := (drawnCanvas x y n s).fb, dirty := true } (drawnCanvas x y n s).hit) .advance) := by
  simp only [execDrw, Memory.load_eq_some.2 ⟨inBounds_iff.2 h, rfl⟩, drawnCanvas]

theorem execDrw_outside {s : State} {x y : RegIdx} {n : Nat} (h0 : n ≠ 0) (h : Config.memSize < s.dataAddr + n) :
    execDrw x y n s = .next (s.raiseIn .memoryOutOfBounds (.drw x y n)) := by
  have hb : inBounds s.dataAddr n = false := by
    simp only [inBounds, decide_eq_false_iff_not]
    omega
  simp only [execDrw, Memory.load_eq_none.2 hb]

/-! ## Keys (R152) -/

theorem execSkp_key {s : State} {x : RegIdx} (h : (s.reg x).toNat ≤ 15) :
    execSkp x s = .next (s.act (skipIf (keyPressed s.key (s.reg x).toNat))) := by
  rw [execSkp, if_neg (by omega)]

theorem execSkp_noKey {s : State} {x : RegIdx} (h : 15 < (s.reg x).toNat) :
    execSkp x s = .next (s.raiseIn .keyIndexOutOfBounds (.skp x)) := by
  rw [execSkp, if_pos h]

theorem execSknp_key {s : State} {x : RegIdx} (h : (s.reg x).toNat ≤ 15) :
    execSknp x s = .next (s.act (skipIf (!keyPressed s.key (s.reg x).toNat))) := by
  rw [execSknp, if_neg (by omega)]

theorem execSknp_noKey {s : State} {x : RegIdx} (h : 15 < (s.reg x).toNat) :
    execSknp x s = .next (s.raiseIn .keyIndexOutOfBounds (.sknp x)) := by
  rw [execSknp, if_pos h]

/-! ## PC -/

@[simp] theorem nextPc_skipIf (pc0 : Word) (c : Bool) :
    nextPc pc0 (skipIf c) = if c = true then pc0 + 4 else pc0 + 2 := by
  cases c <;> rfl

/-! ## Every instruction answers a next state -/

/-- What an instruction does: it takes a fatal error of its own, or its regular effect `t` keeps what no instruction
touches. -/
theorem exec_cases (i : Instr) (s : State) :
    ∃ t, exec i s = .next t ∧ ((∃ code, t = s.raiseIn code i) ∨
      (t = { s with v := t.v, i := t.i, pc := t.pc, sp := t.sp, stack := t.stack, delay := t.delay, sound := t.sound,
                    fb := t.fb, dirty := t.dirty, key := t.key, mode := t.mode, mem := t.mem, rndTaken := t.rndTaken } ∧
        (t.mode = s.mode ∨ ∃ x, i = .ldVxK x ∧ t.mode = .awaitingKey x))) := by
  cases i with
  | ldVxK x => exact ⟨_, rfl, .inr ⟨rfl, .inr ⟨x, rfl, rfl⟩⟩⟩
  | ret =>
    rcases h : s.sp.val with _ | j
    · exact ⟨_, execRet_empty h, .inl ⟨_, rfl⟩⟩
    · exact ⟨_, execRet_entry h (by have := s.sp.isLt; omega), .inr ⟨rfl, .inl rfl⟩⟩
  | call nnn =>
    by_cases h : s.sp.val < Config.stackCapacity
    · exact ⟨_, execCall_room nnn h, .inr ⟨rfl, .inl rfl⟩⟩
    · exact ⟨_, execCall_full nnn (by have := s.sp.isLt; omega), .inl ⟨_, rfl⟩⟩
  | drw x y n =>
    by_cases h : n = 0 ∨ s.dataAddr + n ≤ Config.memSize
    · exact ⟨_, execDrw_inside h, .inr ⟨rfl, .inl rfl⟩⟩
    · rw [not_or, Nat.not_le] at h
      exact ⟨_, execDrw_outside h.1 h.2, .inl ⟨_, rfl⟩⟩
  | skp x =>
    by_cases h : (s.reg x).toNat ≤ 15
    · exact ⟨_, execSkp_key h, .inr ⟨rfl, .inl rfl⟩⟩
    · exact ⟨_, execSkp_noKey (Nat.not_le.1 h), .inl ⟨_, rfl⟩⟩
  | sknp x =>
    by_cases h : (s.reg x).toNat ≤ 15
    · exact ⟨_, execSknp_key h, .inr ⟨rfl, .inl rfl⟩⟩
    · exact ⟨_, execSknp_noKey (Nat.not_le.1 h), .inl ⟨_, rfl⟩⟩
  | ldB x =>
    by_cases h : s.dataAddr + (bcdDigits (s.reg x)).length ≤ Config.memSize
    · exact ⟨_, storeAtI_inside h, .inr ⟨rfl, .inl rfl⟩⟩
    · exact ⟨_, storeAtI_outside (by simp [bcdDigits]) (Nat.not_le.1 h), .inl ⟨_, rfl⟩⟩
  | ldMemVx x =>
    by_cases h : s.dataAddr + (s.regsUpTo x).length ≤ Config.memSize
    · exact ⟨_, storeAtI_inside h, .inr ⟨rfl, .inl rfl⟩⟩
    · exact ⟨_, storeAtI_outside (List.ne_nil_of_length_pos (by simp)) (Nat.not_le.1 h), .inl ⟨_, rfl⟩⟩
  | ldVxMem x =>
    by_cases h : s.dataAddr + x.val ≤ 0xFFF
    · exact ⟨_, execLdVxMem_inside h, .inr ⟨rfl, .inl rfl⟩⟩
    · exact ⟨_, execLdVxMem_outside (Nat.not_le.1 h), .inl ⟨_, rfl⟩⟩
  | cls | jp _ | jpV0 _ | seImm _ _ | sneImm _ _ | seReg _ _ | sneReg _ _ | ldImm _ _ | addImm _ _ | ldReg _ _
  | orReg _ _ | andReg _ _ | xorReg _ _ | addReg _ _ | sub _ _ | shr _ _ | subn _ _ | shl _ _ | rnd _ _ | ldI _
  | addI _ | ldF _ | ldVxDt _ | ldDtVx _ | ldStVx _ => exact ⟨_, rfl, .inr ⟨rfl, .inl rfl⟩⟩

end Sys2Proof.Machine
end

