-- ==== Sys2Proof/Laws/PerInstr.lean ====
section
/-! SUPPORT. The statement made of every instruction, one lemma per constructor: its encoding matches the row of
spec/opcode_table.json it is held to. -/

namespace Sys2Proof.Laws.TableRow

/-- The word of the instruction, under the mask of its row, is the row's match value. -/
def Statement (i : Instr) : Prop := encode i &&& (tableRow i).1 = (tableRow i).2

/-! ## One lemma per format (R87) -/

theorem formatNNN_family (f : BitVec 4) (nnn : BitVec 12) : formatNNN f nnn &&& (15#4 ++ 0#12) = f ++ 0#12 := by
  rw [formatNNN, BitVec.and_append, BitVec.and_zero, show f &&& 15#4 = f from BitVec.and_allOnes]

theorem formatXKK_family (f : BitVec 4) (x : RegIdx) (kk : Byte) :
    formatXKK f x kk &&& (15#4 ++ 0#4 ++ 0#8) = f ++ 0#4 ++ 0#8 := by
  rw [formatXKK, BitVec.and_append, BitVec.and_append, BitVec.and_zero, BitVec.and_zero,
    show f &&& 15#4 = f from BitVec.and_allOnes]

theorem formatXKK_family_kk (f : BitVec 4) (x : RegIdx) (kk : Byte) :
    formatXKK f x kk &&& (15#4 ++ 0#4 ++ 255#8) = f ++ 0#4 ++ kk := by
  rw [formatXKK, BitVec.and_append, BitVec.and_append, BitVec.and_zero,
    show f &&& 15#4 = f from BitVec.and_allOnes, show kk &&& 255#8 = kk from BitVec.and_allOnes]

theorem formatXYN_family (f : BitVec 4) (x y : RegIdx) (n : BitVec 4) :
    formatXYN f x y n &&& (15#4 ++ 0#4 ++ 0#4 ++ 0#4) = f ++ 0#4 ++ 0#4 ++ 0#4 := by
  rw [formatXYN, BitVec.and_append, BitVec.and_append, BitVec.and_append, BitVec.and_zero,
    BitVec.and_zero, BitVec.and_zero, show f &&& 15#4 = f from BitVec.and_allOnes]

theorem formatXYN_family_n (f : BitVec 4) (x y : RegIdx) (n : BitVec 4) :
    formatXYN f x y n &&& (15#4 ++ 0#4 ++ 0#4 ++ 15#4) = f ++ 0#4 ++ 0#4 ++ n := by
  rw [formatXYN, BitVec.and_append, BitVec.and_append, BitVec.and_append, BitVec.and_zero,
    BitVec.and_zero, show f &&& 15#4 = f from BitVec.and_allOnes, show n &&& 15#4 = n from BitVec.and_allOnes]

/-! ## One lemma per instruction -/

theorem cls : Statement .cls := rfl
theorem ret : Statement .ret := rfl
theorem jp (nnn : BitVec 12) : Statement (.jp nnn) := formatNNN_family 0x1 nnn
theorem call (nnn : BitVec 12) : Statement (.call nnn) := formatNNN_family 0x2 nnn
theorem seImm (x : RegIdx) (kk : Byte) : Statement (.seImm x kk) := formatXKK_family 0x3 x kk
theorem sneImm (x : RegIdx) (kk : Byte) : Statement (.sneImm x kk) := formatXKK_family 0x4 x kk
theorem seReg (x y : RegIdx) : Statement (.seReg x y) := formatXYN_family_n 0x5 x y 0x0
theorem ldImm (x : RegIdx) (kk : Byte) : Statement (.ldImm x kk) := formatXKK_family 0x6 x kk
theorem addImm (x : RegIdx) (kk : Byte) : Statement (.addImm x kk) := formatXKK_family 0x7 x kk
theorem ldReg (x y : RegIdx) : Statement (.ldReg x y) := formatXYN_family_n 0x8 x y 0x0
theorem orReg (x y : RegIdx) : Statement (.orReg x y) := formatXYN_family_n 0x8 x y 0x1
theorem andReg (x y : RegIdx) : Statement (.andReg x y) := formatXYN_family_n 0x8 x y 0x2
theorem xorReg (x y : RegIdx) : Statement (.xorReg x y) := formatXYN_family_n 0x8 x y 0x3
theorem addReg (x y : RegIdx) : Statement (.addReg x y) := formatXYN_family_n 0x8 x y 0x4
theorem sub (x y : RegIdx) : Statement (.sub x y) := formatXYN_family_n 0x8 x y 0x5
theorem shr (x y : RegIdx) : Statement (.shr x y) := formatXYN_family_n 0x8 x y 0x6
theorem subn (x y : RegIdx) : Statement (.subn x y) := formatXYN_family_n 0x8 x y 0x7
theorem shl (x y : RegIdx) : Statement (.shl x y) := formatXYN_family_n 0x8 x y 0xE
theorem sneReg (x y : RegIdx) : Statement (.sneReg x y) := formatXYN_family_n 0x9 x y 0x0
theorem ldI (nnn : BitVec 12) : Statement (.ldI nnn) := formatNNN_family 0xA nnn
theorem jpV0 (nnn : BitVec 12) : Statement (.jpV0 nnn) := formatNNN_family 0xB nnn
theorem rnd (x : RegIdx) (kk : Byte) : Statement (.rnd x kk) := formatXKK_family 0xC x kk
theorem drw (x y : RegIdx) (n : Nat) : Statement (.drw x y n) :=
  formatXYN_family 0xD x y (BitVec.ofNat 4 n)
theorem skp (x : RegIdx) : Statement (.skp x) := formatXKK_family_kk 0xE x 0x9E
theorem sknp (x : RegIdx) : Statement (.sknp x) := formatXKK_family_kk 0xE x 0xA1
theorem ldVxDt (x : RegIdx) : Statement (.ldVxDt x) := formatXKK_family_kk 0xF x 0x07
theorem ldVxK (x : RegIdx) : Statement (.ldVxK x) := formatXKK_family_kk 0xF x 0x0A
theorem ldDtVx (x : RegIdx) : Statement (.ldDtVx x) := formatXKK_family_kk 0xF x 0x15
theorem ldStVx (x : RegIdx) : Statement (.ldStVx x) := formatXKK_family_kk 0xF x 0x18
theorem addI (x : RegIdx) : Statement (.addI x) := formatXKK_family_kk 0xF x 0x1E
theorem ldF (x : RegIdx) : Statement (.ldF x) := formatXKK_family_kk 0xF x 0x29
theorem ldB (x : RegIdx) : Statement (.ldB x) := formatXKK_family_kk 0xF x 0x33
theorem ldMemVx (x : RegIdx) : Statement (.ldMemVx x) := formatXKK_family_kk 0xF x 0x55
theorem ldVxMem (x : RegIdx) : Statement (.ldVxMem x) := formatXKK_family_kk 0xF x 0x65

end Sys2Proof.Laws.TableRow
end

