-- ==== Sys2Proof/Laws/Step.lean ====
section
/-! SUPPORT. The paths of a cycle, one equation each, what a step can do (`StepCase`), and the tick. -/

namespace Sys2Proof.Machine

/-! ## Fetch (R102) -/

theorem State.fetch_inside {s : State} (h : s.pc.toNat ≤ 0xFFE) :
    s.fetch = some (Memory.byteAt s.mem s.pc.toNat ++ Memory.byteAt s.mem (s.pc.toNat + 1)) := by
  unfold State.fetch
  rw [if_pos (inBounds_iff.2 (.inr (by simp only [Config.memSize]; omega)))]

theorem State.fetch_outside {s : State} (h : 0xFFE < s.pc.toNat) : s.fetch = none := by
  unfold State.fetch
  rw [if_neg]
  intro hb
  rcases inBounds_iff.1 hb with h | h
  · omega
  · simp only [Config.memSize] at h
    omega

theorem State.fetch_eq_some {s : State} {op : Word} (h : s.fetch = some op) : s.pc.toNat ≤ 0xFFE := by
  apply Nat.not_lt.1
  intro h'
  rw [State.fetch_outside h'] at h
  cases h

/-- The host's request does not touch memory or PC. -/
@[simp] theorem State.fetch_beginCycle (s : State) : s.beginCycle.fetch = s.fetch := rfl

/-! ## The paths of a cycle (R97 to R100) -/

theorem step_faulted {s : State} {rec : FatalRecord} (h : s.mode = .faulted rec) :
    step s = .next (s.beginCycle.reportFatal rec) := by
  simp only [step, State.runCycle, State.beginCycle_mode, h]

theorem step_awaiting {s : State} {x : RegIdx} (h : s.mode = .awaitingKey x) :
    step s = .next ((s.beginCycle.checkKeys x).endCycle s.sound .ok) := by
  simp only [step, State.runCycle, State.beginCycle_mode, State.beginCycle_sound, h]

theorem step_fetched {s : State} {op : Word} (hm : s.mode = .running) (hf : s.fetch = some op) :
    step s = s.beginCycle.runWord op := by
  simp only [step, State.runCycle, State.beginCycle_mode, hm, State.fetch_beginCycle, hf]

theorem step_notFetched {s : State} (hm : s.mode = .running) (hf : s.fetch = none) :
    step s = .next (s.beginCycle.raise .memoryOutOfBounds none) := by
  simp only [step, State.runCycle, State.beginCycle_mode, hm, State.fetch_beginCycle, hf]

theorem State.runWord_decoded {s t : State} {op : Word} {i : Instr} (hd : decodeWord op = .ok i)
    (he : exec i s = .next t) : s.runWord op = .next (t.afterExec s.sound) := by
  simp only [State.runWord, hd, he]

theorem State.runWord_unsupported {s : State} {op : Word} {e : DecodeError} (hd : decodeWord op = .error e) :
    s.runWord op = .next ((s.act .advance).endCycle s.sound (.unsupported op s.pc)) := by
  simp only [State.runWord, hd]

theorem State.afterExec_safe {t : State} (h : t.Safe) (s0 : Byte) : t.afterExec s0 = t.endCycle s0 .ok := by
  unfold State.afterExec
  split
  · exact absurd ‹_› (h _)
  · rfl
  · rfl

theorem State.afterExec_faulted {t : State} {rec : FatalRecord} (h : t.mode = .faulted rec) (s0 : Byte) :
    t.afterExec s0 = t := by
  simp only [State.afterExec, h]

/-! ## The key wait (R99) -/

theorem State.checkKeys_pressed {s : State} {k : Nat} (x : RegIdx) (h : lowestPressed s.key = some k) :
    s.checkKeys x =
      { s with v := (s.setReg x (BitVec.ofNat 8 k)).v, pc := s.pc + 2, mode := .running } := by
  simp only [State.checkKeys, h]

theorem State.checkKeys_none {s : State} (x : RegIdx) (h : lowestPressed s.key = none) : s.checkKeys x = s := by
  simp only [State.checkKeys, h]

/-- The wait is left for Running or held. -/
theorem State.checkKeys_mode (s : State) (x : RegIdx) :
    (s.checkKeys x).mode = .running ∨ ((s.checkKeys x).mode = s.mode ∧ (s.checkKeys x).pc = s.pc) := by
  cases h : lowestPressed s.key with
  | some k => exact .inl (by rw [State.checkKeys_pressed x h])
  | none => exact .inr (by rw [State.checkKeys_none x h]; exact ⟨rfl, rfl⟩)

/-! ## What a step can do -/

/-- The ways in which a step from `s` ends in `t`. -/
inductive StepCase (s t : State) : Prop
  /-- A Faulted block reports its record (R98). -/
  | faulted (rec : FatalRecord) (hm : s.mode = .faulted rec) (ht : t = s.beginCycle.reportFatal rec)
  /-- The key wait is checked (R99). -/
  | awaiting (x : RegIdx) (hm : s.mode = .awaitingKey x)
      (ht : t = (s.beginCycle.checkKeys x).endCycle s.sound .ok)
  /-- The fetch is out of bounds (R102). -/
  | notFetched (hm : s.mode = .running) (hf : s.fetch = none) (ht : t = s.beginCycle.raise .memoryOutOfBounds none)
  /-- The fetched word is unsupported (R107). -/
  | unsupported (op : Word) (e : DecodeError) (hm : s.mode = .running) (hf : s.fetch = some op)
      (hd : decodeWord op = .error e)
      (ht : t = (s.beginCycle.act .advance).endCycle s.sound (.unsupported op s.pc))
  /-- The instruction takes a fatal error of its own (R163). -/
  | fatal (op : Word) (i : Instr) (code : FatalCode) (hm : s.mode = .running) (hf : s.fetch = some op)
      (hd : decodeWord op = .ok i) (he : exec i s.beginCycle = .next (s.beginCycle.raiseIn code i))
      (ht : t = s.beginCycle.raiseIn code i)
  /-- The instruction has its regular effect (R100). -/
  | executed (op : Word) (i : Instr) (u : State) (hm : s.mode = .running) (hf : s.fetch = some op)
      (hd : decodeWord op = .ok i) (he : exec i s.beginCycle = .next u) (hu : u.Safe)
      (ht : t = u.endCycle s.sound .ok)

/-- Everything a step can do. -/
theorem step_cases {s t : State} (h : step s = .next t) : StepCase s t := by
  cases hm : s.mode with
  | faulted rec =>
    rw [step_faulted hm] at h
    exact .faulted rec hm (Host.Outcome.next.inj h).symm
  | awaitingKey x =>
    rw [step_awaiting hm] at h
    exact .awaiting x hm (Host.Outcome.next.inj h).symm
  | running =>
    cases hf : s.fetch with
    | none =>
      rw [step_notFetched hm hf] at h
      exact .notFetched hm hf (Host.Outcome.next.inj h).symm
    | some op =>
      rw [step_fetched hm hf] at h
      cases hd : decodeWord op with
      | error e =>
        rw [State.runWord_unsupported hd] at h
        exact .unsupported op e hm hf hd (Host.Outcome.next.inj h).symm
      | ok i =>
        obtain ⟨u, he, hu⟩ := exec_cases i s.beginCycle
        rw [State.runWord_decoded hd he] at h
        have ht := (Host.Outcome.next.inj h).symm
        rcases hu with ⟨code, rfl⟩ | ⟨-, hu⟩
        · rw [State.afterExec_faulted (State.raiseIn_mode ..)] at ht
          exact .fatal op i code hm hf hd he ht
        · have hs : u.Safe := by
            intro rec e
            rcases hu with hu | ⟨x, -, hu⟩
            · rw [hu, State.beginCycle_mode, hm] at e
              cases e
            · rw [hu] at e
              cases e
          rw [State.afterExec_safe hs] at ht
          exact .executed op i u hm hf hd he hs ht

/-! ## The tick (R173) -/

@[simp] theorem toNat_countDown (t : Byte) : (countDown t).toNat = t.toNat - 1 := by
  unfold countDown
  have := t.isLt
  split
  · simp
    omega
  · omega

theorem State.tick_notDue {s : State} (h : s.tickDue = false) : s.tick = s := by
  simp [State.tick, h]

/-! ## Port writes (R52, R53) -/

theorem foldl_portWrite (ws : List PortWrite) (s : State) :
    (ws.foldl State.portWrite s).key = keyAfterWrites s.key ws ∧
      (ws.foldl State.portWrite s).dirty = dirtyAfterWrites s.dirty ws := by
  induction ws generalizing s with
  | nil => exact ⟨rfl, rfl⟩
  | cons w ws ih => exact ih (s.portWrite w)

end Sys2Proof.Machine
end

