-- ==== Sys2Proof/Tests/Slice0.lean ====
section
/-! SUPPORT. The model's own tests: ill-formed terms refused, words decoded, the vectors of spec/95_test_vectors.md one
step each (the theorem names the vector), and witnesses that the hypotheses of the statements can be met. -/

namespace Sys2Proof.Tests

open Sys2Proof.Machine

/-! ## WellFormed (the one check: the row count of Dxyn) -/

theorem test_drw_of_16_rows_is_ill_formed : Instr.wellFormed (.drw 0 0 16) = false := by decide

theorem test_drw_of_15_rows_is_well_formed : Instr.wellFormed (.drw 0 0 15) = true := by decide

/-! ## Decoding: the encoding lines of the rules, bit by bit -/

theorem test_decode_family_0 :
    decodeWord 0b0000000011100000#16 = .ok .cls ∧ decodeWord 0b0000000011101110#16 = .ok .ret ∧
      decodeWord 0b0000000011100001#16 = .error (.unsupported 0x00E1) := by decide

theorem test_decode_jumps :
    decodeWord 0b0001101010111100#16 = .ok (.jp 0xABC) ∧ decodeWord 0b0010101010111100#16 = .ok (.call 0xABC) ∧
      decodeWord 0b1011101010111100#16 = .ok (.jpV0 0xABC) := by decide

theorem test_decode_skips :
    decodeWord 0b0011000110100101#16 = .ok (.seImm 1 0xA5) ∧ decodeWord 0b0100000110100101#16 = .ok (.sneImm 1 0xA5) ∧
      decodeWord 0b0101000100100000#16 = .ok (.seReg 1 2) ∧ decodeWord 0b1001000100100000#16 = .ok (.sneReg 1 2) ∧
      decodeWord 0b1001000100100001#16 = .error (.unsupported 0x9121) := by decide

theorem test_decode_immediates :
    decodeWord 0b0110111100010010#16 = .ok (.ldImm 15 0x12) ∧ decodeWord 0b0111111100010010#16 = .ok (.addImm 15 0x12) ∧
      decodeWord 0b1100111100010010#16 = .ok (.rnd 15 0x12) ∧ decodeWord 0b1010000100100011#16 = .ok (.ldI 0x123) := by
  decide

theorem test_decode_family_8 :
    decodeWord 0b1000000100100000#16 = .ok (.ldReg 1 2) ∧ decodeWord 0b1000000100100001#16 = .ok (.orReg 1 2) ∧
      decodeWord 0b1000000100100010#16 = .ok (.andReg 1 2) ∧ decodeWord 0b1000000100100011#16 = .ok (.xorReg 1 2) ∧
      decodeWord 0b1000000100100100#16 = .ok (.addReg 1 2) ∧ decodeWord 0b1000000100100101#16 = .ok (.sub 1 2) ∧
      decodeWord 0b1000000100100110#16 = .ok (.shr 1 2) ∧ decodeWord 0b1000000100100111#16 = .ok (.subn 1 2) ∧
      decodeWord 0b1000000100101110#16 = .ok (.shl 1 2) ∧
      decodeWord 0b1000000100101111#16 = .error (.unsupported 0x812F) := by decide

theorem test_decode_drw : decodeWord 0b1101000100101111#16 = .ok (.drw 1 2 15) := by decide

theorem test_decode_family_E :
    decodeWord 0b1110101010011110#16 = .ok (.skp 10) ∧ decodeWord 0b1110101010100001#16 = .ok (.sknp 10) ∧
      decodeWord 0b1110101000000000#16 = .error (.unsupported 0xEA00) := by decide

theorem test_decode_family_F :
    decodeWord 0b1111101000000111#16 = .ok (.ldVxDt 10) ∧ decodeWord 0b1111101000001010#16 = .ok (.ldVxK 10) ∧
      decodeWord 0b1111101000010101#16 = .ok (.ldDtVx 10) ∧ decodeWord 0b1111101000011000#16 = .ok (.ldStVx 10) ∧
      decodeWord 0b1111101000011110#16 = .ok (.addI 10) ∧ decodeWord 0b1111101000101001#16 = .ok (.ldF 10) ∧
      decodeWord 0b1111101000110011#16 = .ok (.ldB 10) ∧ decodeWord 0b1111101001010101#16 = .ok (.ldMemVx 10) ∧
      decodeWord 0b1111101001100101#16 = .ok (.ldVxMem 10) ∧
      decodeWord 0b1111111111111111#16 = .error (.unsupported 0xFFFF) := by decide

/-! ## Helpers: small states and one step -/

/-- The state after reset, with one request of the host: no port write, `now` 0 and `rnd` 0xA5. -/
def base : State := { State.reset with requests := [⟨[], 0, 0xA5⟩] }

/-- `base` with these V registers. -/
def withRegs (vs : List (RegIdx × Byte)) : State := vs.foldl (fun s p => s.setReg p.1 p.2) base

/-- A state with I and some bytes of memory there. -/
def withData (s : State) (i : Word) (bytes : List Byte) : State :=
  { s with i := i, mem := Memory.setBytes s.mem i.toNat bytes }

/-- What `f` sees in the next state of an outcome. -/
def seen (o : Outcome) {α : Type} (f : State → α) : Option α :=
  match o with
  | .next t => some (f t)
  | .fault _ => none
  | .refused _ => none

/-- What `f` sees after one step that runs the word `w`. -/
def after (s : State) (w : Nat) {α : Type} (f : State → α) : Option α := seen (step (s.withFetchWord 16 w)) f

/-- The status a fatal error with an opcode reports. -/
def fatalStatus (code : FatalCode) (op pc : Word) : Option CycleStatus := some (.fatal ⟨code, some op, some pc⟩)

/-! ## Control transfer (vectors TC) -/

theorem test_ret_TC1 :
    after { base with pc := 0x404, sp := 1, stack := base.stack.set 0 0x302 } 0x00EE (fun t => (t.pc, t.sp.val)) =
      some (0x302, 0) := by decide

theorem test_ret_TC2 :
    after { base with pc := 0x404 } 0x00EE (fun t => (t.pc, t.status)) =
      some (0x404, fatalStatus .stackUnderflow 0x00EE 0x404) := by decide

theorem test_jp_TC6 : after base 0x1FFF (fun t => t.pc) = some 0xFFF := by decide

theorem test_call_TC8 :
    after { base with pc := 0x300, sp := 15 } 0x2400 (fun t => (t.pc, t.sp.val, t.stack[15])) =
      some (0x400, 16, 0x302) := by decide

theorem test_call_TC9 :
    after { base with pc := 0x300, sp := 16 } 0x2400 (fun t => (t.pc, t.sp.val, t.status)) =
      some (0x300, 16, fatalStatus .stackOverflow 0x2400 0x300) := by decide

theorem test_seImm_TC11_TC12 :
    after (withRegs [(1, 0x42)]) 0x3142 (fun t => t.pc) = some 0x204 ∧
      after (withRegs [(1, 0x42)]) 0x3143 (fun t => t.pc) = some 0x202 := by decide

theorem test_sneImm_TC14_TC15 :
    after (withRegs [(1, 0x42)]) 0x4143 (fun t => t.pc) = some 0x204 ∧
      after (withRegs [(1, 0x42)]) 0x4142 (fun t => t.pc) = some 0x202 := by decide

theorem test_seReg_TC16_TC17 :
    after (withRegs [(1, 7), (2, 7)]) 0x5120 (fun t => t.pc) = some 0x204 ∧
      after (withRegs [(1, 7), (2, 8)]) 0x5120 (fun t => t.pc) = some 0x202 := by decide

theorem test_sneReg_TC19_TC20 :
    after (withRegs [(1, 7), (2, 8)]) 0x9120 (fun t => t.pc) = some 0x204 ∧
      after (withRegs [(3, 9)]) 0x9330 (fun t => t.pc) = some 0x202 := by decide

theorem test_jpV0_TC23 : after (withRegs [(0, 0xFF)]) 0xBFFF (fun t => t.pc) = some 0x10FE := by decide

/-! ## Arithmetic (vectors TA) -/

theorem test_ldImm_TA1 : after base 0x6A2B (fun t => (t.reg 10, t.pc)) = some (0x2B, 0x202) := by decide

theorem test_addImm_TA3 :
    after (withRegs [(1, 0xFF), (15, 7)]) 0x7101 (fun t => (t.reg 1, t.reg 15)) = some (0, 7) := by decide

theorem test_ldReg_TA6 : after (withRegs [(2, 0x99)]) 0x8120 (fun t => (t.reg 1, t.reg 2)) = some (0x99, 0x99) := by
  decide

theorem test_orReg_TA7 :
    after (withRegs [(1, 0xF0), (2, 0x0F), (15, 5)]) 0x8121 (fun t => (t.reg 1, t.reg 15)) = some (0xFF, 5) := by decide

theorem test_andReg_TA8 : after (withRegs [(1, 0xF0), (2, 0x3C)]) 0x8122 (fun t => t.reg 1) = some 0x30 := by decide

theorem test_xorReg_TA9 : after (withRegs [(1, 0xF0), (2, 0x3C)]) 0x8123 (fun t => t.reg 1) = some 0xCC := by decide

theorem test_addReg_TA13 :
    after (withRegs [(1, 0xFF), (2, 0xFF)]) 0x8124 (fun t => (t.reg 1, t.reg 15)) = some (0xFE, 1) := by decide

theorem test_addReg_TA15_TA16 :
    after (withRegs [(15, 0xFF), (1, 1)]) 0x8F14 (fun t => t.reg 15) = some 1 ∧
      after (withRegs [(1, 0x10), (15, 1)]) 0x81F4 (fun t => (t.reg 1, t.reg 15)) = some (0x11, 0) := by decide

theorem test_sub_TA17_TA19 :
    after (withRegs [(1, 5), (2, 10)]) 0x8125 (fun t => (t.reg 1, t.reg 15)) = some (0xFB, 0) ∧
      after (withRegs [(1, 7), (2, 7)]) 0x8125 (fun t => (t.reg 1, t.reg 15)) = some (0, 1) := by decide

theorem test_shr_TA23_TA25 :
    after (withRegs [(1, 4), (2, 0xFF)]) 0x8126 (fun t => (t.reg 1, t.reg 15)) = some (2, 0) ∧
      after (withRegs [(15, 3)]) 0x8F06 (fun t => t.reg 15) = some 1 := by decide

theorem test_subn_TA26_TA27 :
    after (withRegs [(1, 5), (2, 10)]) 0x8127 (fun t => (t.reg 1, t.reg 15)) = some (5, 1) ∧
      after (withRegs [(1, 10), (2, 5)]) 0x8127 (fun t => (t.reg 1, t.reg 15)) = some (0xFB, 0) := by decide

theorem test_shl_TA31_TA32 :
    after (withRegs [(1, 0x80), (2, 1)]) 0x812E (fun t => (t.reg 1, t.reg 15)) = some (0, 1) ∧
      after (withRegs [(15, 0x80)]) 0x8F0E (fun t => t.reg 15) = some 1 := by decide

theorem test_rnd_TA35_TA38 :
    after base 0xC10F (fun t => (t.reg 1, t.rndTaken)) = some (0x05, true) ∧
      after base 0x6000 (fun t => (t.reg 0, t.rndTaken)) = some (0, false) := by decide

/-! ## Index register and memory (vectors TM) -/

theorem test_ldI_TM2 : after base 0xAFFF (fun t => (t.i, t.pc)) = some (0xFFF, 0x202) := by decide

theorem test_addI_TM3 :
    after { withRegs [(3, 5), (15, 7)] with i := 0xFFE } 0xF31E (fun t => (t.i, t.reg 15)) = some (0x003, 7) := by decide

theorem test_addI_TM6 :
    after { withRegs [(15, 1)] with i := 0xFFF, fx1eSetsVf := true } 0xFF1E (fun t => (t.i, t.reg 15)) =
      some (0x000, 1) := by decide

theorem test_ldF_TM8_TM11 :
    after (withRegs [(10, 0x0A)]) 0xFA29 (fun t => t.i) = some 0x032 ∧
      after (withRegs [(1, 0xFF)]) 0xF129 (fun t => t.i) = some 0x4FB := by decide

theorem test_ldB_TM12 :
    after { withRegs [(5, 234)] with i := 0x300 } 0xF533 (fun t => (Memory.bytesFrom t.mem 0x300 3, t.i)) =
      some ([2, 3, 4], 0x300) := by decide

theorem test_ldB_TM16 :
    after { withRegs [(5, 7)] with i := 0xFFE } 0xF533 (fun t => (Memory.bytesFrom t.mem 0xFFD 3, t.status)) =
      some ([0, 0, 0], fatalStatus .memoryOutOfBounds 0xF533 0x200) := by decide

theorem test_ldMemVx_TM20 :
    after { withRegs [(0, 1), (1, 2), (2, 3), (3, 4)] with i := 0xFFC } 0xF355
      (fun t => (Memory.bytesFrom t.mem 0xFFC 4, t.i)) = some ([1, 2, 3, 4], 0xFFC) := by decide

theorem test_ldMemVx_TM21 :
    after { withRegs [(0, 1), (1, 2), (2, 3), (3, 4)] with i := 0xFFD } 0xF355
      (fun t => (Memory.bytesFrom t.mem 0xFFD 3, t.status)) =
      some ([0, 0, 0], fatalStatus .memoryOutOfBounds 0xF355 0x200) := by decide

theorem test_ldVxMem_TM23 :
    after (withData (withRegs [(4, 0x44)]) 0x300 [1, 2, 3, 4]) 0xF365 (fun t => (t.v.toList.take 5, t.i)) =
      some ([1, 2, 3, 4, 0x44], 0x300) := by decide

theorem test_ldVxMem_TM26 :
    after (withData base 0xFF1 []) 0xFF65 (fun t => (t.reg 15, t.status)) =
      some (0, fatalStatus .memoryOutOfBounds 0xFF65 0x200) := by decide

/-! ## Framebuffer (vectors TD) -/

theorem test_cls_TD1 :
    after { base with fb := Framebuffer.toggle base.fb 31 63 } 0x00E0 (fun t => (t.pixel 31 63, t.dirty, t.pc)) =
      some (false, true, 0x202) := by decide

theorem test_drw_TD5 :
    after (withData (withRegs [(0, 62), (1, 31)]) 0x300 [0x81, 0xC3]) 0xD012
      (fun t => ([t.pixel 31 62, t.pixel 31 5, t.pixel 0 62, t.pixel 0 63, t.pixel 0 4, t.pixel 0 5],
        [t.pixel 31 63, t.pixel 31 4, t.pixel 0 0], t.reg 15, t.dirty)) =
      some ([true, true, true, true, true, true], [false, false, false], 0, true) := by decide

theorem test_drw_TD7_TD11 :
    after (withData { base with fb := Framebuffer.toggle base.fb 0 1 } 0x300 [0x40]) 0xD011
        (fun t => (t.pixel 0 1, t.reg 15)) = some (false, 1) ∧
      after { base with i := 0xFFF } 0xD012 (fun t => (t.dirty, t.status)) =
        some (false, fatalStatus .memoryOutOfBounds 0xD012 0x200) := by decide

/-! ## Keypad and timers (vectors TK) -/

theorem test_skp_TK1_TK2 :
    after { withRegs [(1, 3)] with key := 8 } 0xE19E (fun t => (t.pc, t.key)) = some (0x204, 8) ∧
      after (withRegs [(1, 3)]) 0xE19E (fun t => t.pc) = some 0x202 := by decide

theorem test_skp_TK5 :
    after (withRegs [(1, 0x10)]) 0xE19E (fun t => (t.pc, t.status)) =
      some (0x200, fatalStatus .keyIndexOutOfBounds 0xE19E 0x200) := by decide

theorem test_sknp_TK3_TK4 :
    after (withRegs [(1, 3)]) 0xE1A1 (fun t => t.pc) = some 0x204 ∧
      after { withRegs [(1, 3)] with key := 8 } 0xE1A1 (fun t => t.pc) = some 0x202 := by decide

theorem test_ldVxDt_TK7 : after { base with delay := 0x20 } 0xF207 (fun t => (t.reg 2, t.pc)) = some (0x20, 0x202) := by
  decide

theorem test_ldDtVx_TK9 :
    after { withRegs [(1, 3)] with second := 60, requests := [⟨[], 1, 0⟩] } 0xF115 (fun t => (t.delay, t.tRef)) =
      some (2, 1) := by decide

theorem test_ldStVx_TK10_TK11 :
    after (withRegs [(4, 0x10)]) 0xF418 (fun t => (t.sound, t.soundActive)) = some (16, true) ∧
      after { base with sound := 5 } 0xF418 (fun t => (t.sound, t.toneComplete)) = some (0, true) := by decide

theorem test_ldVxK_TK13 :
    after { base with key := 32 } 0xF30A (fun t => (t.key, t.mode, t.pc)) = some (0, .awaitingKey 3, 0x200) := by decide

theorem test_keyWait_TK15 :
    seen (step { base with mode := .awaitingKey 3, requests := [⟨[.keySet 9, .keySet 5], 0, 0⟩] })
      (fun t => (t.reg 3, t.pc, t.mode, t.key)) = some (5, 0x202, .running, 544) := by decide

/-! ## The cycle (vectors TY, TT, TR) -/

theorem test_fetch_TY1 :
    seen (step { base with pc := 0xFFF }) (fun t => (t.pc, t.mode, t.status)) =
      some (0xFFF, .faulted ⟨.memoryOutOfBounds, none, some 0xFFF⟩,
        some (.fatal ⟨.memoryOutOfBounds, none, some 0xFFF⟩)) := by decide

theorem test_fetch_TY2 : after { base with pc := 0xFFE } 0x6A2B (fun t => (t.reg 10, t.pc)) = some (0x2B, 0x1000) := by
  decide

theorem test_unsupported_TY5 :
    after { base with second := 60, delay := 2, requests := [⟨[], 1, 0⟩] } 0x0000
      (fun t => (t.pc, t.delay, t.status)) = some (0x202, 1, some (.unsupported 0x0000 0x200)) := by decide

theorem test_noCatchUp_TT1 :
    after { base with delay := 10, requests := [⟨[], 10000000, 0⟩] } 0x1200 (fun t => (t.delay, t.tRef)) =
      some (9, 10000000) := by decide

theorem test_construct_TR4 :
    (fun s : State => (Memory.bytesFrom s.mem 0x1FF 4, s.pc, s.mode))
      (construct { defaultArgs with rom := [0x12, 0x34] }).1 = ([0, 0x12, 0x34, 0], 0x200, .running) := by decide

theorem test_resetMemory_is_canonical : Memory.wf State.reset.mem = true := by decide

theorem test_tableWord_of_table_rows :
    decodeTableWord 16 0xF265 = some (.ldVxMem 2) ∧ decodeTableWord 16 0x5121 = none := by decide

/-! ## Witnesses: concrete values that meet the hypotheses of the statements, clause by clause -/

/-- Construction with a ROM of `n` bytes 0xAB. -/
def romArgs (n : Nat) : ConstructArgs := { defaultArgs with rom := List.replicate n 0xAB }

theorem safe_of_running {s : State} (h : s.mode = .running) : s.Safe := by
  intro rec e
  rw [h] at e
  cases e

theorem base_inv : base.Inv where
  mem_wf := by decide
  i_bound := by decide
  pc_bound := by decide
  stack_bound := by decide
  wait_pc := by intro x h; cases h
  fatal_mode := by intro rec h; cases h

theorem witness_DecodeOfEncodeIsIdentity :
    Instr.WellFormed (.drw 15 15 15) ∧ Instr.WellFormed (.drw 0 0 0) ∧ Instr.WellFormed (.ldVxMem 15) := by decide

theorem witness_EncodeOfDecodeIsIdentity : decodeWord 0xD01F = .ok (.drw 0 1 15) := by decide

theorem witness_UnsupportedWordsAreThoseListed_error :
    decodeWord 0x0FFF = .error (.unsupported 0x0FFF) ∧ decodeWord 0xF066 = .error (.unsupported 0xF066) := by decide

theorem witness_UnsupportedWordsAreThoseListed_listed :
    UnsupportedWord 0x0FFF ∧ UnsupportedWord 0x8008 ∧ UnsupportedWord 0x800D := by
  unfold UnsupportedWord
  decide

theorem witness_UnsupportedWordsAreThoseListed_supported : ¬ UnsupportedWord 0x800E ∧ ¬ UnsupportedWord 0xF065 := by
  unfold UnsupportedWord
  decide

theorem length_romArgs (n : Nat) : (romArgs n).rom.length = n := List.length_replicate

theorem witness_ConstructionFixesTheRest : (romArgs 3584).rom.length ≤ 3584 := by
  rw [length_romArgs]

theorem witness_ConstructionLoadsFontAndRom :
    (romArgs 3584).rom.length ≤ 3584 ∧ 3583 < (romArgs 3584).rom.length ∧ 0 < (romArgs 3584).rom.length ∧
      (80 ≤ 0x1FF ∧ 0x1FF < 4096 ∧ ¬ (0x200 ≤ 0x1FF ∧ 0x1FF < 0x200 + (romArgs 3584).rom.length)) ∧
      (80 ≤ 4095 ∧ 4095 < 4096 ∧ ¬ (0x200 ≤ 4095 ∧ 4095 < 0x200 + (romArgs 3583).rom.length)) := by
  simp only [length_romArgs]
  omega

theorem witness_ConstructionRejectsALongRom : 3584 < (romArgs 3585).rom.length ∧ 80 ≤ 4095 ∧ 4095 < 4096 := by
  rw [length_romArgs]
  omega

theorem witness_CallPushesTheReturnAddress :
    { base with sp := 15 : State }.sp.val < 16 ∧ { base with sp := 16 : State }.sp.val = 16 := by decide

theorem witness_RetPopsTheReturnAddress :
    { base with sp := 1 : State }.sp.val = (0 : Fin Config.stackCapacity).val + 1 ∧
      { base with sp := 16 : State }.sp.val = (15 : Fin Config.stackCapacity).val + 1 ∧ base.sp.val = 0 := by decide

theorem witness_RetReturnsPastTheCall :
    ∃ s t u : State, s.sp.val < 16 ∧ exec (.call 0x400) s = .next t ∧ u.stack = t.stack ∧ u.sp = t.sp :=
  ⟨{ base with sp := 15 }, _, _, by decide, rfl, rfl, rfl⟩

theorem witness_PcFollowsTheInstructionKind :
    (∃ t, exec (.seImm 0 0) base = .next t ∧ base.Safe ∧ t.Safe) ∧
      (∃ t, exec (.jp 0) base = .next t ∧ base.Safe ∧ t.Safe) ∧
      (∃ t, exec (.ldVxK 1) base = .next t ∧ base.Safe ∧ t.Safe) ∧
      ∃ t, exec .cls base = .next t ∧ base.Safe ∧ t.Safe :=
  ⟨⟨_, rfl, safe_of_running rfl, safe_of_running rfl⟩, ⟨_, rfl, safe_of_running rfl, safe_of_running rfl⟩,
    ⟨_, rfl, safe_of_running rfl, by intro rec h; cases h⟩, ⟨_, rfl, safe_of_running rfl, safe_of_running rfl⟩⟩

theorem witness_BcdStoresThreeDigits :
    Memory.wf base.mem = true ∧ { base with i := 0xFFD : State }.dataAddr = 0xFFD ∧ 0xFFD ≤ 0xFFD ∧
      { base with i := 0xFFE : State }.i.toNat > 0xFFD := by decide

theorem witness_StoreWritesV0ToVx :
    Memory.wf base.mem = true ∧ { base with i := 0xFF0 : State }.dataAddr = 0xFF0 ∧ 0xFF0 + (15 : RegIdx).val ≤ 0xFFF ∧
      (15 : RegIdx).val ≤ (15 : RegIdx).val ∧ { base with i := 0xFF1 : State }.i.toNat + (15 : RegIdx).val > 0xFFF := by
  decide

theorem witness_LoadReadsV0ToVx :
    { base with i := 0xFFF : State }.i.toNat + (0 : RegIdx).val ≤ 0xFFF ∧
      { base with i := 0xFFF : State }.i.toNat + (1 : RegIdx).val > 0xFFF := by decide

theorem witness_LoadRestoresWhatStoreSaved :
    ∃ s t u : State, Memory.wf s.mem = true ∧ s.i.toNat + (3 : RegIdx).val ≤ 0xFFF ∧
      exec (.ldMemVx 3) s = .next t ∧ u.mem = t.mem ∧ u.i = t.i ∧ (3 : RegIdx).val < (4 : RegIdx).val :=
  ⟨{ base with i := 0xFFC }, _, _, by decide, by decide, rfl, rfl, rfl, by decide⟩

theorem witness_StoredWordIsFetchedNext :
    ∃ s t : State, Memory.wf s.mem = true ∧ 1 ≤ (1 : RegIdx).val ∧ s.i = s.pc + 2 ∧ s.pc.toNat ≤ 0xFFC ∧
      s.i.toNat + (1 : RegIdx).val ≤ 0xFFF ∧ exec (.ldMemVx 1) s = .next t :=
  ⟨{ base with i := 0xFFE, pc := 0xFFC }, _, by decide, by decide, by decide, by decide, by decide, rfl⟩

theorem witness_DrawXorsTheSprite_clauses :
    15 ≤ 15 ∧ { base with i := 0xFF1 : State }.i.toNat + 15 - 1 ≤ 0xFFF ∧
      (1 ≤ 15 ∧ { base with i := 0xFF2 : State }.i.toNat + 15 - 1 > 0xFFF) := by decide

/-- A glyph of the default font drawn at the bottom right corner: its first pixel is there, its second one wraps. -/
theorem witness_DrawXorsTheSprite_pixels :
    UnderSprite base.mem 0 5 63 31 31 63 ∧ UnderSprite base.mem 0 5 63 31 0 63 ∧
      ¬ UnderSprite base.mem 0 5 63 31 5 5 := by
  refine ⟨⟨0, 0, by decide⟩, ⟨1, 0, by decide⟩, ?_⟩
  rintro ⟨r, j, hr, hj, -, h, -⟩
  have h' : 5 = (31 + r) % 32 := h
  omega

theorem witness_DrawXorsTheSprite_collision :
    (∃ row col, UnderSprite base.mem 0 5 63 31 row col ∧
        { base with fb := Framebuffer.toggle base.fb 31 63 : State }.pixel row col = true) ∧
      ¬ ∃ row col, UnderSprite base.mem 0 5 63 31 row col ∧ base.pixel row col = true := by
  refine ⟨⟨31, 63, ⟨0, 0, by decide⟩, by decide⟩, ?_⟩
  rintro ⟨row, col, -, h⟩
  simp [State.pixel, Framebuffer.pixel, base, State.reset] at h

theorem witness_SpriteBitsLandOnDistinctPixels :
    15 ≤ 15 ∧ (15 = 0 ∨ { base with i := 0xFF1 : State }.i.toNat + 15 - 1 ≤ 0xFFF) ∧ 14 < 15 ∧ 7 < 8 ∧
      (255 + 14) % 32 = (255 + 14) % 32 ∧ (255 + 7) % 64 = (255 + 7) % 64 := by decide

/-- Both orders of the two pixels of the row byte 0x81 drawn from column 62 (vector TD5). -/
theorem witness_SpriteBitsLandOnDistinctPixels_order :
    spritePixels 62 31 0 [0x81] = [(31, 62), (31, 5)] ∧
      [((31 : Fin Config.displayH), (5 : Fin Config.displayW)), (31, 62)].Perm (spritePixels 62 31 0 [0x81]) := by decide

theorem witness_DrawingTwiceRestoresTheScreen :
    ∃ t : State, 15 ≤ 15 ∧ (0 : RegIdx) ≠ 15 ∧ (1 : RegIdx) ≠ 15 ∧ (15 = 0 ∨ base.i.toNat + 15 - 1 ≤ 0xFFF) ∧
      exec (.drw 0 1 15) base = .next t :=
  ⟨_, by decide, by decide, by decide, by decide, rfl⟩

theorem witness_KeySkipsReadTheLatch :
    ((withRegs [(1, 15)]).reg 1).toNat ≤ 15 ∧ ((withRegs [(1, 16)]).reg 1).toNat > 15 := by decide

theorem witness_RequestIsTakenBeforeTheCycle :
    base.requests = ⟨[], 0, 0xA5⟩ :: [] ∧ { base with requests := [] : State }.requests = [] := by decide

theorem witness_PortWritesChangeLatchOrDirty : PortWrite.keySet 15 ≠ .dirtyClear := by decide

/-- `base` about to run RET on an empty stack. -/
def beforeFatal : State := base.placeWord 0x00EE

theorem witness_StepRunsTheDecodedInstruction_fatal :
    ∃ t, beforeFatal.mode = .running ∧ beforeFatal.pc.toNat ≤ 0xFFE ∧
      decode [Memory.byteAt beforeFatal.mem beforeFatal.pc.toNat,
        Memory.byteAt beforeFatal.mem (beforeFatal.pc.toNat + 1)] = .ok (.ret, []) ∧
      exec .ret beforeFatal.beginCycle = .next t ∧ ∃ rec, t.mode = .faulted rec :=
  ⟨_, rfl, by decide, by decide, rfl, _, rfl⟩

theorem witness_StepRunsTheDecodedInstruction_safe :
    ∃ s t : State, s.mode = .running ∧ s.pc.toNat ≤ 0xFFE ∧
      decode [Memory.byteAt s.mem s.pc.toNat, Memory.byteAt s.mem (s.pc.toNat + 1)] = .ok (.cls, []) ∧
      exec .cls s.beginCycle = .next t ∧ t.Safe :=
  ⟨{ base with pc := 0xFFE }.placeWord 0x00E0, _, rfl, by decide, by decide, rfl, safe_of_running rfl⟩

theorem witness_UnsupportedWordIsANoOp :
    base.mode = .running ∧ base.fetch = some 0x0000 ∧ decodeWord 0x0000 = .error (.unsupported 0x0000) := by decide

theorem witness_FetchReadsTwoBytesOrFaults :
    { base with pc := 0xFFE : State }.pc.toNat ≤ 0xFFE ∧
      ({ base with pc := 0xFFF : State }.pc.toNat > 0xFFE ∧ { base with pc := 0xFFF : State }.mode = .running) := by
  decide

theorem witness_FaultedIsTerminal :
    { base with mode := .faulted romTooLargeRecord : State }.mode = .faulted ⟨.romTooLarge, none, none⟩ := by decide

/-- The key wait of an Fx0A with x = 3, where the host presses these keys. -/
def waiting (ws : List PortWrite) : State := { base with mode := .awaitingKey 3, requests := [⟨ws, 0, 0⟩] }

theorem witness_KeyWaitEndsWithTheLowestKey :
    (waiting []).mode = .awaitingKey 3 ∧
      (15 < 16 ∧ keyPressed (waiting [.keySet 15]).beginCycle.key 15 = true ∧
        ∀ j, j < 15 → keyPressed (waiting [.keySet 15]).beginCycle.key j = false) ∧
      ∀ k, k < 16 → keyPressed (waiting []).beginCycle.key k = false := by decide

/-- A machine of 60 time units per second, at time `t`. -/
def atTime (t : Nat) : State := { base with second := 60, tRef := 1, now := t }

theorem witness_TickCountsDownWhenDue :
    ((atTime 2).tRef ≤ (atTime 2).now ∧ (atTime 2).second ≤ 60 * ((atTime 2).now - (atTime 2).tRef)) ∧
      ((atTime 0).now < (atTime 0).tRef) ∧ 60 * ((atTime 1).now - (atTime 1).tRef) < (atTime 1).second := by decide

theorem witness_TicksWithinOnePeriodCountOnce :
    ∀ a ∈ [0, 16, 15984, 16666], ∀ b ∈ [0, 16, 15984, 16666], 60 * (a - b) < base.second := by decide

theorem witness_ToneCompleteIsOneShot :
    (∃ t, step { base with pc := 0x100, sound := 1 } = .next t ∧ t.Safe) ∧
      ∃ t rec, step beforeFatal = .next t ∧ t.mode = .faulted rec :=
  ⟨⟨_, rfl, safe_of_running rfl⟩, ⟨_, _, rfl, rfl⟩⟩

theorem witness_RndTakenExactlyByRnd : ∃ t, step (base.placeWord 0xC10F) = .next t ∧ t.rndTaken = true :=
  ⟨_, rfl, rfl⟩

theorem witness_FatalErrorsArePrecise :
    ∃ t rec, beforeFatal.mode = .running ∧ step beforeFatal = .next t ∧ t.mode = .faulted rec :=
  ⟨_, _, rfl, rfl, rfl⟩

theorem witness_OnlyFx0AEntersTheKeyWait :
    ∃ t, (base.placeWord 0xF30A).mode = .running ∧ step (base.placeWord 0xF30A) = .next t ∧ t.mode = .awaitingKey 3 :=
  ⟨_, rfl, rfl, rfl⟩

theorem witness_OnlyFlagWritersWriteVF :
    (∃ t, exec (.addReg 1 2) base = .next t ∧ base.Safe ∧ t.Safe ∧ writesFlag (.addReg 1 2) base.fx1eSetsVf) ∧
      ∃ t, exec (.addI 15) base = .next t ∧ base.Safe ∧ t.Safe ∧ ¬ writesFlag (.addI 15) base.fx1eSetsVf ∧
        ¬ hasDest (.addI 15) 15 :=
  ⟨⟨_, rfl, safe_of_running rfl, safe_of_running rfl, by simp [writesFlag]⟩,
    ⟨_, rfl, safe_of_running rfl, safe_of_running rfl, by simp [writesFlag, base, State.reset], by simp [hasDest]⟩⟩

theorem witness_OnlyThreeInstructionsWriteI : ∃ t, exec (.ldI 0xFFF) base = .next t ∧ t.i ≠ base.i :=
  ⟨_, rfl, by decide⟩

theorem witness_OnlyTwoInstructionsWriteMemory :
    ∃ s t : State, Memory.wf s.mem = true ∧ exec (.ldB 5) s = .next t ∧
      Memory.byteAt t.mem 0xFFF ≠ Memory.byteAt s.mem 0xFFF :=
  ⟨{ withRegs [(5, 123)] with i := 0xFFD }, _, by decide, rfl, by decide⟩

theorem witness_OnlyRndReadsTheRandomByte : (∀ x kk, Instr.cls ≠ .rnd x kk) ∧ ∃ t, exec .cls base = .next t :=
  ⟨(by intro x kk h; cases h), _, rfl⟩

theorem witness_EveryStepKeepsTheInvariant : base.Inv ∧ ∃ t, step base = .next t := ⟨base_inv, _, rfl⟩

theorem witness_PlacedInstructionRunsNext : Memory.wf base.mem = true ∧ Instr.WellFormed (.drw 0 1 15) := by decide

end Sys2Proof.Tests
end

section
/-! PROOF. What each instruction does, said once (`ExecEffect`). -/

namespace Sys2Proof.Machine

/-! ## The effect of an instruction -/

/-- The ways in which `exec i s` ends in `t`: a fatal error, or one of the regular effects of the rules, each with the
instructions that have it. -/
inductive ExecEffect (i : Instr) (s t : State) : Prop
  /-- A fatal error of the instruction's own (R163). -/
  | fatal (code : FatalCode) (ht : t = s.raiseIn code i)
  /-- One destination register is written (R125 to R130, R157). -/
  | dest (x : RegIdx) (b : Byte) (hi : hasDest i x) (ht : t = (s.setReg x b).act .advance)
  /-- A destination register and then the flag are written (R131 to R135). -/
  | flag (x : RegIdx) (b : Byte) (c : Bool) (hi : ∀ f, writesFlag i f)
      (ht : t = ((s.setReg x b).setFlag c).act .advance)
  /-- The cycle's `rnd` is taken (R136). -/
  | rnd (x : RegIdx) (kk : Byte) (hi : i = .rnd x kk)
      (ht : t = (State.setReg { s with rndTaken := true } x (s.rnd &&& kk)).act .advance)
  /-- V0..Vx are loaded from memory (R144). -/
  | load (x : RegIdx) (hi : i = .ldVxMem x)
      (ht : t = State.act
        { s with v := setRegsFrom s.v 0 (Memory.bytesFrom s.mem s.dataAddr (x.val + 1)) } .advance)
  /-- PC skips or advances (R105). -/
  | skip (c : Bool) (hi : maySkip i) (ht : t = s.act (skipIf c))
  /-- PC becomes a target formed from nnn (R114, R120). -/
  | jump (w : Word) (hi : setsPc i) (hw : w.toNat ≤ 0x10FE) (ht : t = s.act (.set w))
  /-- The address after the CALL is pushed (R115). -/
  | call (nnn : BitVec 12) (hi : i = .call nnn) (hs : s.sp.val < Config.stackCapacity)
      (ht : t = State.act { s with
        stack := s.stack.set s.sp.val (s.pc + 2) hs
        sp := ⟨s.sp.val + 1, Nat.succ_lt_succ hs⟩ } (.set (zext16 nnn)))
  /-- The last entry is popped into PC (R113). -/
  | ret (j : Nat) (hi : i = .ret) (hs : s.sp.val = j + 1) (hj : j < Config.stackCapacity)
      (ht : t = State.act { s with sp := ⟨j, Nat.lt_succ_of_lt hj⟩ } (.set s.stack[j]))
  /-- I becomes an address of 12 bits (R139, R141). -/
  | index (w : Word) (hi : (∃ nnn, i = .ldI nnn) ∨ ∃ x, i = .ldF x) (hw : w.toNat ≤ 0xFFF)
      (ht : t = (s.setI w).act .advance)
  /-- Vx is added to I, with a flag where the parameter says so (R140). -/
  | addI (x : RegIdx) (hi : i = .addI x)
      (ht : t = State.act { s.setI (indexSum s.i (s.reg x)) with
        v := if s.fx1eSetsVf then (s.setFlag (indexOverflow s.i (s.reg x))).v else s.v } .advance)
  /-- The screen is cleared (R150). -/
  | clear (hi : i = .cls) (ht : t = State.act { s with fb := Framebuffer.clear, dirty := true } .advance)
  /-- A sprite is drawn (R151). -/
  | draw (x y : RegIdx) (n : Nat) (hi : i = .drw x y n)
      (ht : t = State.act (State.setFlag
        { s with fb := (drawnCanvas x y n s).fb, dirty := true } (drawnCanvas x y n s).hit) .advance)
  /-- Bytes are stored at I, all of them inside memory (R142, R143). -/
  | store (bytes : List Byte) (hi : (∃ x, i = .ldB x) ∨ ∃ x, i = .ldMemVx x)
      (hb : s.dataAddr + bytes.length ≤ Config.memSize)
      (ht : t = State.act { s with mem := Memory.setBytes s.mem s.dataAddr bytes } .advance)
  /-- A timer is set (R158, R159). -/
  | timer (d b : Byte) (hi : (∃ x, i = .ldDtVx x) ∨ ∃ x, i = .ldStVx x)
      (ht : t = State.act { s with delay := d, sound := b } .advance)
  /-- The key wait is entered (R156). -/
  | keyWait (x : RegIdx) (hi : i = .ldVxK x)
      (ht : t = State.act { s with key := 0, mode := .awaitingKey x } .hold)

/-- Every instruction answers a next state, and reaches it in one of the ways of `ExecEffect`. -/
theorem exec_effect (i : Instr) (s : State) : ∃ t, exec i s = .next t ∧ ExecEffect i s t := by
  cases i with
  | cls => exact ⟨_, rfl, .clear rfl rfl⟩
  | ret =>
    rcases h : s.sp.val with _ | j
    · exact ⟨_, execRet_empty h, .fatal _ rfl⟩
    · have hj : j < Config.stackCapacity := by have := s.sp.isLt; omega
      exact ⟨_, execRet_entry h hj, .ret j rfl h hj rfl⟩
  | jp nnn => exact ⟨_, rfl, .jump _ (by simp [setsPc]) (by rw [toNat_zext16]; omega) rfl⟩
  | jpV0 nnn => exact ⟨_, rfl, .jump _ (by simp [setsPc]) (by rw [toNat_indexedTarget]; omega) rfl⟩
  | call nnn =>
    by_cases h : s.sp.val < Config.stackCapacity
    · exact ⟨_, execCall_room nnn h, .call nnn rfl h rfl⟩
    · exact ⟨_, execCall_full nnn (by have := s.sp.isLt; omega), .fatal _ rfl⟩
  | seImm _ _ | sneImm _ _ | seReg _ _ | sneReg _ _ => exact ⟨_, rfl, .skip _ (by simp [maySkip]) rfl⟩
  | skp x =>
    by_cases h : (s.reg x).toNat ≤ 15
    · exact ⟨_, execSkp_key h, .skip _ (by simp [maySkip]) rfl⟩
    · exact ⟨_, execSkp_noKey (Nat.not_le.1 h), .fatal _ rfl⟩
  | sknp x =>
    by_cases h : (s.reg x).toNat ≤ 15
    · exact ⟨_, execSknp_key h, .skip _ (by simp [maySkip]) rfl⟩
    · exact ⟨_, execSknp_noKey (Nat.not_le.1 h), .fatal _ rfl⟩
  | ldImm x _ | addImm x _ | ldReg x _ | orReg x _ | andReg x _ | xorReg x _ | ldVxDt x =>
    exact ⟨_, rfl, .dest x _ (by simp [hasDest]) rfl⟩
  | addReg x _ | sub x _ | shr x _ | subn x _ | shl x _ =>
    exact ⟨_, rfl, .flag x _ _ (by simp [writesFlag]) rfl⟩
  | rnd x kk => exact ⟨_, rfl, .rnd x kk rfl rfl⟩
  | drw x y n =>
    by_cases h : n = 0 ∨ s.dataAddr + n ≤ Config.memSize
    · exact ⟨_, execDrw_inside h, .draw x y n rfl rfl⟩
    · rw [not_or, Nat.not_le] at h
      exact ⟨_, execDrw_outside h.1 h.2, .fatal _ rfl⟩
  | ldI nnn => exact ⟨_, rfl, .index _ (.inl ⟨nnn, rfl⟩) (by rw [toNat_zext16]; omega) rfl⟩
  | ldF x => exact ⟨_, rfl, .index _ (.inr ⟨x, rfl⟩) (by rw [toNat_glyphAddr]; omega) rfl⟩
  | addI x => exact ⟨_, rfl, .addI x rfl rfl⟩
  | ldB x =>
    by_cases h : s.dataAddr + (bcdDigits (s.reg x)).length ≤ Config.memSize
    · exact ⟨_, storeAtI_inside h, .store _ (.inl ⟨x, rfl⟩) h rfl⟩
    · exact ⟨_, storeAtI_outside (by simp [bcdDigits]) (Nat.not_le.1 h), .fatal _ rfl⟩
  | ldMemVx x =>
    by_cases h : s.dataAddr + (s.regsUpTo x).length ≤ Config.memSize
    · exact ⟨_, storeAtI_inside h, .store _ (.inr ⟨x, rfl⟩) h rfl⟩
    · exact ⟨_, storeAtI_outside (List.ne_nil_of_length_pos (by simp)) (Nat.not_le.1 h), .fatal _ rfl⟩
  | ldVxMem x =>
    by_cases h : s.dataAddr + x.val ≤ 0xFFF
    · exact ⟨_, execLdVxMem_inside h, .load x rfl rfl⟩
    · exact ⟨_, execLdVxMem_outside (Nat.not_le.1 h), .fatal _ rfl⟩
  | ldDtVx x => exact ⟨_, rfl, .timer _ s.sound (.inl ⟨x, rfl⟩) rfl⟩
  | ldStVx x => exact ⟨_, rfl, .timer s.delay _ (.inr ⟨x, rfl⟩) rfl⟩
  | ldVxK x => exact ⟨_, rfl, .keyWait x rfl rfl⟩

theorem ExecEffect.of_exec {i : Instr} {s t : State} (h : exec i s = .next t) : ExecEffect i s t := by
  obtain ⟨u, hu, he⟩ := exec_effect i s
  exact Host.Outcome.next.inj (hu.symm.trans h) ▸ he

end Sys2Proof.Machine
end

section
/-! PROOF. The invariant: it holds at reset, and every step keeps it. -/

namespace Sys2Proof.Machine

/-! ## The invariant under the operations of a cycle -/

theorem State.Inv.beginCycle {s : State} (h : s.Inv) : s.beginCycle.Inv := { h with }

/-- Reporting the record the engine has stopped with keeps the invariant. -/
theorem State.Inv.reportFatal {s : State} {rec : FatalRecord} (h : s.Inv) (hm : s.mode = .faulted rec) :
    (s.reportFatal rec).Inv :=
  { h with fatal_mode := fun _ e => hm.trans (congrArg Mode.faulted (CycleStatus.fatal.inj (Option.some.inj e))) }

/-- So does taking a fatal error, which stops the engine with the record it reports. -/
theorem State.Inv.raise {s : State} (h : s.Inv) (code : FatalCode) (op : Option Word) : (s.raise code op).Inv where
  mem_wf := h.mem_wf
  i_bound := h.i_bound
  pc_bound := h.pc_bound
  stack_bound := h.stack_bound
  wait_pc := nofun
  fatal_mode := fun _ e => congrArg Mode.faulted (CycleStatus.fatal.inj (Option.some.inj e))

/-- The tick and a report that is no fatal error keep it. -/
theorem State.Inv.endCycle {s : State} (h : s.Inv) (s0 : Byte) {st : CycleStatus} (hst : ∀ rec, st ≠ .fatal rec) :
    (s.endCycle s0 st).Inv :=
  { h with fatal_mode := fun rec e => absurd (Option.some.inj e) (hst rec) }

/-- Where no fatal error has been taken, none is reported. -/
theorem State.Inv.status_ne_fatal {s : State} (h : s.Inv) (hs : s.Safe) (rec : FatalRecord) :
    s.status ≠ some (.fatal rec) := fun e => hs rec (h.fatal_mode rec e)

/-- In Running, PC is free below its bound. -/
theorem State.Inv.act {s : State} (h : s.Inv) (hm : s.mode = .running) {a : PcAction}
    (ha : (nextPc s.pc a).toNat ≤ 0x10FE) : (s.act a).Inv :=
  { h with
    pc_bound := ha
    wait_pc := fun _ e => Mode.noConfusion (hm.symm.trans e) }

/-! ## PC after a fetched instruction (R25) -/

theorem toNat_nextPc_advance {pc : Word} (h : pc.toNat ≤ 0xFFE) : (nextPc pc .advance).toNat = pc.toNat + 2 := by
  simp only [nextPc]
  bv_omega

theorem toNat_nextPc_skipIf_le {pc : Word} (h : pc.toNat ≤ 0xFFE) (c : Bool) :
    (nextPc pc (skipIf c)).toNat ≤ 0x1002 := by
  rw [nextPc_skipIf]
  split <;> bv_omega

/-- After a fetched instruction, PC may advance. -/
theorem State.Inv.act_advance {s : State} (h : s.Inv) (hm : s.mode = .running) (hpc : s.pc.toNat ≤ 0xFFE) :
    (s.act .advance).Inv :=
  h.act hm (by rw [toNat_nextPc_advance hpc]; omega)

/-- An instruction that was fetched keeps the invariant. -/
theorem State.Inv.of_exec {s t : State} {i : Instr} (h : s.Inv) (hm : s.mode = .running) (hpc : s.pc.toNat ≤ 0xFFE)
    (he : exec i s = .next t) : t.Inv := by
  cases ExecEffect.of_exec he with
  | fatal code ht => exact ht ▸ h.raise code _
  | dest _ _ _ ht | flag _ _ _ _ ht | rnd _ _ _ ht | load _ _ ht | clear _ ht | draw _ _ _ _ ht | timer _ _ _ ht =>
    rw [ht]
    exact State.Inv.act_advance { h with } hm hpc
  | skip c _ ht => exact ht ▸ h.act hm ((toNat_nextPc_skipIf_le hpc c).trans (by omega))
  | jump w _ hw ht => exact ht ▸ h.act hm hw
  | call nnn _ hs ht =>
    have hret : (s.pc + 2).toNat ≤ 0x1000 := by bv_omega
    have hstack : ∀ j : Fin Config.stackCapacity, ((s.stack.set s.sp.val (s.pc + 2) hs)[j.val]).toNat ≤ 0x1000 := by
      intro j
      rw [Vector.getElem_set]
      split
      · exact hret
      · exact h.stack_bound j
    have hpushed : State.Inv { s with
        stack := s.stack.set s.sp.val (s.pc + 2) hs
        sp := ⟨s.sp.val + 1, Nat.succ_lt_succ hs⟩ } := { h with stack_bound := hstack }
    exact ht ▸ hpushed.act hm (by rw [nextPc, toNat_zext16]; omega)
  | ret j _ _ hj ht =>
    have hret : s.stack[j].toNat ≤ 0x1000 := h.stack_bound ⟨j, hj⟩
    have hpopped : State.Inv { s with sp := ⟨j, Nat.lt_succ_of_lt hj⟩ } := { h with }
    exact ht ▸ hpopped.act hm (hret.trans (by decide))
  | index w _ hw ht =>
    rw [ht]
    exact State.Inv.act_advance { h with i_bound := hw } hm hpc
  | addI x _ ht =>
    rw [ht]
    refine State.Inv.act_advance { h with i_bound := ?_ } hm hpc
    rw [State.setI_i, toNat_indexSum]
    omega
  | store bytes _ hb ht =>
    rw [ht]
    exact State.Inv.act_advance { h with mem_wf := Memory.setBytes_wf h.mem_wf hb } hm hpc
  | keyWait x _ ht =>
    have hs : s.Safe := fun _ e => Mode.noConfusion (hm.symm.trans e)
    rw [ht]
    exact { h with
      wait_pc := fun _ _ => hpc
      fatal_mode := fun rec e => absurd e (h.status_ne_fatal hs rec) }

/-- The check of the keys keeps the invariant, whether the wait ends or holds (R99). -/
theorem State.Inv.checkKeys {s : State} {x : RegIdx} (h : s.Inv) (hm : s.mode = .awaitingKey x) :
    (s.checkKeys x).Inv := by
  have hpc := h.wait_pc x hm
  have hs : s.Safe := fun _ e => Mode.noConfusion (hm.symm.trans e)
  cases hk : lowestPressed s.key with
  | none => exact (State.checkKeys_none x hk).symm ▸ h
  | some k =>
    rw [State.checkKeys_pressed x hk]
    exact { h with
      pc_bound := by rw [show s.pc + 2 = nextPc s.pc .advance from rfl, toNat_nextPc_advance hpc]; omega
      wait_pc := nofun
      fatal_mode := fun rec e => absurd e (h.status_ne_fatal hs rec) }

/-- Settles O59: each way a step can go (`StepCase`) is built of operations that keep the invariant. -/
theorem everyStepKeepsTheInvariant : Obligations.EveryStepKeepsTheInvariant := by
  intro s t h hstep
  have hb := h.beginCycle
  cases step_cases hstep with
  | faulted rec hm ht => exact ht ▸ hb.reportFatal hm
  | awaiting x hm ht => exact ht ▸ (hb.checkKeys hm).endCycle _ nofun
  | notFetched _ _ ht => exact ht ▸ hb.raise _ _
  | unsupported op e hm hf _ ht => exact ht ▸ (hb.act_advance hm (State.fetch_eq_some hf)).endCycle _ nofun
  | fatal op i code _ _ _ _ ht => exact ht ▸ hb.raise code _
  | executed op i u hm hf _ he _ ht => exact ht ▸ (hb.of_exec hm (State.fetch_eq_some hf) he).endCycle _ nofun

/-- Settles O58, clause by clause: memory lists no address and every register is 0 but PC. -/
theorem invariantHoldsAtReset : Obligations.InvariantHoldsAtReset where
  mem_wf := rfl
  i_bound := by decide
  pc_bound := by decide
  stack_bound := by decide
  wait_pc := nofun
  fatal_mode := nofun

end Sys2Proof.Machine
end

section
/-! PROOF. Construction (R46, R181 to R185) and the host's ports (R50, R52, R53). -/

namespace Sys2Proof.Machine

/-! ## Construction -/

/-- A ROM that fits is copied to 0x200 (R181). -/
theorem construct_fits {a : ConstructArgs} (h : a.rom.length ≤ 3584) :
    construct a =
      ({ blankState a with mem := Memory.setBytes (fontMemory a.font) Config.progStart a.rom }, .ok) := by
  rw [construct, if_neg (by simp only [Config.maxRom]; omega)]

/-- Whatever the ROM, construction is the blank state but for memory and mode. -/
theorem construct_eq_blank (a : ConstructArgs) :
    ∃ mem mode, (construct a).1 = { blankState a with mem := mem, mode := mode } := by
  unfold construct
  split
  · exact ⟨_, _, rfl⟩
  · exact ⟨_, _, rfl⟩

theorem font_inside (font : Vector Byte Config.fontSize) : 0 + font.toList.length ≤ Config.memSize := by
  rw [Vector.length_toList]
  decide

theorem fontMemory_wf (font : Vector Byte Config.fontSize) : Memory.wf (fontMemory font) = true :=
  Memory.setBytes_wf rfl (font_inside font)

/-- An address past the font reads 0x00 where nothing is listed (R182). -/
theorem Memory.unlisted_of_le {a : Nat} (h : 80 ≤ a) : Memory.unlisted a = 0 :=
  List.getD_eq_default _ _ h

/-- Memory after the font is copied (R181 step 2). -/
theorem byteAt_fontMemory (font : Vector Byte Config.fontSize) (b : Nat) :
    Memory.byteAt (fontMemory font) b = if h : b < 80 then font[b] else 0 := by
  have hlen : font.toList.length = 80 := Vector.length_toList
  rw [fontMemory, Memory.byteAt_setBytes rfl (font_inside font), hlen]
  by_cases h : b < 80
  · rw [if_pos (by omega), dif_pos h, Nat.sub_zero, List.getD_eq_getElem _ _ (by omega)]
    simp
  · rw [if_neg (by omega), dif_neg h]
    exact Memory.unlisted_of_le (Nat.not_lt.1 h)

/-- Memory after the ROM is copied (R181 step 4). -/
theorem byteAt_construct {a : ConstructArgs} (h : a.rom.length ≤ 3584) (b : Nat) :
    Memory.byteAt (construct a).1.mem b =
      if 0x200 ≤ b ∧ b < 0x200 + a.rom.length then a.rom.getD (b - 0x200) 0
      else Memory.byteAt (fontMemory a.font) b := by
  rw [construct_fits h]
  exact Memory.byteAt_setBytes (fontMemory_wf a.font) (by simp only [Config.progStart, Config.memSize]; omega)

/-- Settles O7: the ROM lies above the font, so each address is in one of the three ranges. -/
theorem constructionLoadsFontAndRom : Obligations.ConstructionLoadsFontAndRom := by
  intro a ha
  refine ⟨?_, fun k => ?_, fun k hk => ?_, fun b hb _ hrom => ?_⟩
  · rw [construct_fits ha]
    exact Memory.setBytes_wf (fontMemory_wf a.font) (by simp only [Config.progStart, Config.memSize]; omega)
  · rw [byteAt_construct ha, if_neg (by omega), byteAt_fontMemory, dif_pos k.isLt]
  · rw [byteAt_construct ha, if_pos (by omega), Nat.add_sub_cancel_left, List.getD_eq_getElem _ _ hk]
  · rw [byteAt_construct ha, if_neg hrom, byteAt_fontMemory, dif_neg (by omega)]

/-- Settles O5: the fields named are those of the blank state. -/
theorem constructionClearsRegistersAndDisplay : Obligations.ConstructionClearsRegistersAndDisplay := by
  intro a
  obtain ⟨mem, mode, h⟩ := construct_eq_blank a
  rw [h]
  refine ⟨fun r => ?_, rfl, rfl, fun j => ?_, rfl, rfl, rfl, Framebuffer.pixel_clear⟩
  · exact Vector.getElem_replicate r.isLt
  · exact Vector.getElem_replicate j.isLt

/-- Settles O6: the fields named are those of the blank state, and the mode is Running where the ROM fits. -/
theorem constructionFixesTheRest : Obligations.ConstructionFixesTheRest := by
  intro a
  have hmode : a.rom.length ≤ 3584 → (construct a).1.mode = .running ∧ (construct a).2 = .ok := fun ha => by
    rw [construct_fits ha]
    exact ⟨rfl, rfl⟩
  obtain ⟨mem, mode, h⟩ := construct_eq_blank a
  rw [h] at hmode ⊢
  exact ⟨rfl, fun k => BitVec.getLsbD_zero, rfl, rfl, rfl, rfl, rfl, rfl, rfl, hmode⟩

/-! ## The host's ports -/

/-- Settles O41: what each write does to each key is `keyPressed_keyAfterWrite`. -/
theorem portWritesChangeLatchOrDirty : Obligations.PortWritesChangeLatchOrDirty := by
  intro s k j b w
  refine ⟨keyPressed_keyAfterWrite s.key (.keySet k) j, keyPressed_keyAfterWrite s.key (.keyClear k) j, rfl, rfl, rfl,
    fun hw => ?_, rfl⟩
  cases w with
  | keySet _ | keyClear _ | keyWriteAll _ => rfl
  | dirtyClear => exact absurd rfl hw

theorem State.nextRequest_cons {s : State} {r : CycleRequest} {rest : List CycleRequest}
    (h : s.requests = r :: rest) : s.nextRequest = r := by
  rw [State.nextRequest, h]

theorem State.nextRequest_now_of_nil {s : State} (h : s.requests = []) :
    s.nextRequest.now = s.now + Config.freeElapsed s.cycles := by
  rw [State.nextRequest, h]

/-- Settles O40: a request that State holds is the next one, and a free one adds to `now`. -/
theorem requestIsTakenBeforeTheCycle : Obligations.RequestIsTakenBeforeTheCycle := by
  intro s
  refine ⟨fun ws now rnd rest h => ?_, fun h => ?_, rfl, rfl⟩
  · have hr := State.nextRequest_cons h
    obtain ⟨hkey, hdirty⟩ := foldl_portWrite ws s
    simp [hr, h, hkey, hdirty]
  · simp [State.nextRequest_now_of_nil h, h]

end Sys2Proof.Machine
end

section
/-! PROOF. Whole-machine rules over every instruction: who writes VF, I and `rnd_taken`, and who reads `rnd`. -/

namespace Sys2Proof.Machine

/-! ## VF (R21) -/

theorem reg_regVF_writeRegFlag {x : RegIdx} {b : Byte} {c : Bool} {s t : State}
    (h : writeRegFlag x b c s = .next t) : t.reg 15 = flagByte c := by
  rw [← Host.Outcome.next.inj h, State.reg_act, State.reg_setFlag, if_pos rfl]

theorem reg_regVF_execDrw {x y : RegIdx} {n : Nat} {s t : State} (h : execDrw x y n s = .next t) (ht : t.Safe) :
    t.reg 15 = flagByte (drawnCanvas x y n s).hit := by
  by_cases hb : n = 0 ∨ s.dataAddr + n ≤ Config.memSize
  · rw [← Host.Outcome.next.inj ((execDrw_inside hb).symm.trans h), State.reg_act, State.reg_setFlag, if_pos rfl]
  · rw [not_or, Nat.not_le] at hb
    rw [← Host.Outcome.next.inj ((execDrw_outside hb.1 hb.2).symm.trans h)] at ht
    exact absurd (State.raiseIn_mode ..) (ht _)

theorem reg_regVF_execAddI {x : RegIdx} {s t : State} (hf : s.fx1eSetsVf = true) (h : execAddI x s = .next t) :
    t.reg 15 = flagByte (indexOverflow s.i (s.reg x)) := by
  have hv : t.v = (s.setFlag (indexOverflow s.i (s.reg x))).v := by
    rw [← Host.Outcome.next.inj h, State.act_v, hf]
    rfl
  rw [State.reg_congr hv, State.reg_setFlag, if_pos rfl]

/-- A flag writer that takes no fatal error leaves a flag in VF. -/
theorem reg_regVF_of_writesFlag {i : Instr} {s t : State} (hi : writesFlag i s.fx1eSetsVf) (h : exec i s = .next t)
    (ht : t.Safe) : ∃ c, t.reg 15 = flagByte c := by
  rcases hi with ⟨x, y, rfl⟩ | ⟨x, y, rfl⟩ | ⟨x, y, rfl⟩ | ⟨x, y, rfl⟩ | ⟨x, y, rfl⟩ | ⟨x, y, n, rfl⟩ | ⟨hf, x, rfl⟩
  iterate 5 exact ⟨_, reg_regVF_writeRegFlag h⟩
  · exact ⟨_, reg_regVF_execDrw h ht⟩
  · exact ⟨_, reg_regVF_execAddI hf h⟩

/-- An instruction that neither writes a flag nor has VF as a destination leaves VF. -/
theorem reg_regVF_of_not_writes {i : Instr} {s t : State} (hflag : ¬ writesFlag i s.fx1eSetsVf) (hdest : ¬ hasDest i 15)
    (h : exec i s = .next t) : t.reg 15 = s.reg 15 := by
  cases ExecEffect.of_exec h with
  | dest x b hi ht =>
    have hx : (15 : RegIdx) ≠ x := fun e => hdest (e ▸ hi)
    rw [ht, State.reg_act, State.reg_setReg, if_neg hx]
  | flag x b c hi ht => exact absurd (hi _) hflag
  | rnd x kk hi ht =>
    have hx : (15 : RegIdx) ≠ x := by rintro rfl; exact hdest (by simp [hasDest, hi])
    rw [ht, State.reg_act, State.reg_setReg, if_neg hx]
    rfl
  | load x hi ht =>
    have hx : ¬ 15 ≤ x.val := fun e => hdest (by simp [hasDest, hi, show x = 15 from Fin.ext (by omega)])
    rw [ht, reg_loaded]
    exact if_neg hx
  | addI x hi ht =>
    have hf : s.fx1eSetsVf = false := by simpa [writesFlag, hi] using hflag
    refine State.reg_congr ?_ 15
    rw [ht, State.act_v, hf]
    rfl
  | draw x y n hi ht => exact absurd (by simp [writesFlag, hi]) hflag
  | fatal _ ht | skip _ _ ht | jump _ _ _ ht | call _ _ _ ht | ret _ _ _ _ ht | index _ _ _ ht | clear _ ht
  | store _ _ _ ht | timer _ _ _ ht | keyWait _ _ ht => rw [ht]; rfl

/-- Settles O54: a flag writer leaves a flag in VF, and every other effect without VF as its destination leaves VF. -/
theorem onlyFlagWritersWriteVF : Obligations.OnlyFlagWritersWriteVF := by
  intro i s t h _ ht
  refine ⟨fun hi => ?_, fun hflag hdest => reg_regVF_of_not_writes hflag hdest h⟩
  obtain ⟨c, hc⟩ := reg_regVF_of_writesFlag hi h ht
  exact hc ▸ flagByte_zero_or_one c

/-! ## I (R23, R137) -/

/-- Settles O55: two of the effects write I, with an address of 12 bits. -/
theorem onlyThreeInstructionsWriteI : Obligations.OnlyThreeInstructionsWriteI := by
  intro i s t h
  cases ExecEffect.of_exec h with
  | index w hi hw ht => exact .inr ⟨ht ▸ hw, hi.imp_right .inr⟩
  | addI x hi ht =>
    have hw : t.i.toNat ≤ 0xFFF := by
      rw [ht, State.act_i, State.setI_i, toNat_indexSum]
      omega
    exact .inr ⟨hw, .inr (.inl ⟨x, hi⟩)⟩
  | fatal _ ht | dest _ _ _ ht | flag _ _ _ _ ht | rnd _ _ _ ht | load _ _ ht | skip _ _ ht | jump _ _ _ ht
  | call _ _ _ ht | ret _ _ _ _ ht | clear _ ht | draw _ _ _ _ ht | store _ _ _ ht | timer _ _ _ ht
  | keyWait _ _ ht => exact .inl (ht ▸ rfl)

/-! ## The random byte (R36, R50, R136) -/

@[simp] theorem State.checkKeys_rndTaken (s : State) (x : RegIdx) : (s.checkKeys x).rndTaken = s.rndTaken := rfl

/-- Of all instructions Cxkk alone raises `rnd_taken`. -/
theorem exec_rndTaken {i : Instr} {s t : State} (hs : s.rndTaken = false) (h : exec i s = .next t) :
    t.rndTaken = true ↔ ∃ x kk, i = .rnd x kk := by
  constructor
  · intro ht
    cases ExecEffect.of_exec h with
    | rnd x kk hi _ => exact ⟨x, kk, hi⟩
    | fatal code hu => exact absurd (ht.symm.trans (congrArg State.rndTaken hu)) (by simp)
    | dest _ _ _ hu | flag _ _ _ _ hu | load _ _ hu | skip _ _ hu | jump _ _ _ hu | call _ _ _ hu | ret _ _ _ _ hu
    | index _ _ _ hu | addI _ _ hu | clear _ hu | draw _ _ _ _ hu | store _ _ _ hu | timer _ _ _ hu
    | keyWait _ _ hu => exact absurd (ht.symm.trans (congrArg State.rndTaken hu)) (by simp [hs])
  · rintro ⟨x, kk, rfl⟩
    rw [← Host.Outcome.next.inj h]
    rfl

/-- Settles O50: a cycle begins with `rnd_taken` 0, and of the ways a step can go only executing an instruction leads to
Cxkk. -/
theorem rndTakenExactlyByRnd : Obligations.RndTakenExactlyByRnd := by
  intro s t h
  cases step_cases h with
  | faulted rec hm ht => simp [ht, hm]
  | awaiting x hm ht => simp [ht, hm]
  | notFetched hm hf ht => simp [ht, hf]
  | unsupported op e hm hf hd ht => simp [ht, hf, hd]
  | fatal op i code hm hf hd he ht => simpa [ht, hm, hf, hd] using exec_rndTaken rfl he
  | executed op i u hm hf hd he _ ht => simpa [ht, hm, hf, hd] using exec_rndTaken rfl he

/-- It is enough to know one state `u` the instruction answers, and that another random byte offered changes `u` in that
byte alone. -/
theorem exec_setRnd {i : Instr} {s u t : State} {b : Byte} (hu : exec i s = .next u)
    (hb : exec i { s with rnd := b } = .next { u with rnd := b }) (h : exec i s = .next t) :
    exec i { s with rnd := b } = .next { t with rnd := b } :=
  Host.Outcome.next.inj (hu.symm.trans h) ▸ hb

/-- Settles O57, instruction by instruction: what a check looks at is not `rnd`, and neither is what is written. -/
theorem onlyRndReadsTheRandomByte : Obligations.OnlyRndReadsTheRandomByte := by
  intro i s t b hi h
  cases i with
  | rnd x kk => exact absurd rfl (hi x kk)
  | ret =>
    rcases hsp : s.sp.val with _ | j
    · exact exec_setRnd (execRet_empty hsp) (execRet_empty hsp) h
    · have hj : j < Config.stackCapacity := by have := s.sp.isLt; omega
      exact exec_setRnd (execRet_entry hsp hj) (execRet_entry (s := { s with rnd := b }) hsp hj) h
  | call nnn =>
    by_cases hsp : s.sp.val < Config.stackCapacity
    · exact exec_setRnd (execCall_room nnn hsp) (execCall_room (s := { s with rnd := b }) nnn hsp) h
    · have hfull : s.sp.val = Config.stackCapacity := by have := s.sp.isLt; omega
      exact exec_setRnd (execCall_full nnn hfull) (execCall_full nnn hfull) h
  | drw x y n =>
    by_cases hm : n = 0 ∨ s.dataAddr + n ≤ Config.memSize
    · exact exec_setRnd (execDrw_inside hm) (execDrw_inside hm) h
    · rw [not_or, Nat.not_le] at hm
      exact exec_setRnd (execDrw_outside hm.1 hm.2) (execDrw_outside hm.1 hm.2) h
  | skp x =>
    by_cases hk : (s.reg x).toNat ≤ 15
    · exact exec_setRnd (execSkp_key hk) (execSkp_key hk) h
    · exact exec_setRnd (execSkp_noKey (Nat.not_le.1 hk)) (execSkp_noKey (Nat.not_le.1 hk)) h
  | sknp x =>
    by_cases hk : (s.reg x).toNat ≤ 15
    · exact exec_setRnd (execSknp_key hk) (execSknp_key hk) h
    · exact exec_setRnd (execSknp_noKey (Nat.not_le.1 hk)) (execSknp_noKey (Nat.not_le.1 hk)) h
  | ldB x =>
    by_cases hm : s.dataAddr + (bcdDigits (s.reg x)).length ≤ Config.memSize
    · exact exec_setRnd (storeAtI_inside hm) (storeAtI_inside hm) h
    · have h0 : bcdDigits (s.reg x) ≠ [] := by simp [bcdDigits]
      exact exec_setRnd (storeAtI_outside h0 (Nat.not_le.1 hm)) (storeAtI_outside h0 (Nat.not_le.1 hm)) h
  | ldMemVx x =>
    by_cases hm : s.dataAddr + (s.regsUpTo x).length ≤ Config.memSize
    · exact exec_setRnd (storeAtI_inside hm) (storeAtI_inside hm) h
    · have h0 : s.regsUpTo x ≠ [] := List.ne_nil_of_length_pos (by simp)
      exact exec_setRnd (storeAtI_outside h0 (Nat.not_le.1 hm)) (storeAtI_outside h0 (Nat.not_le.1 hm)) h
  | ldVxMem x =>
    by_cases hm : s.dataAddr + x.val ≤ 0xFFF
    · exact exec_setRnd (execLdVxMem_inside hm) (execLdVxMem_inside hm) h
    · exact exec_setRnd (execLdVxMem_outside (Nat.not_le.1 hm)) (execLdVxMem_outside (Nat.not_le.1 hm)) h
  | cls | jp _ | jpV0 _ | seImm _ _ | sneImm _ _ | seReg _ _ | sneReg _ _ | ldImm _ _ | addImm _ _ | ldReg _ _
  | orReg _ _ | andReg _ _ | xorReg _ _ | addReg _ _ | sub _ _ | shr _ _ | subn _ _ | shl _ _ | ldI _ | addI _ | ldF _
  | ldVxDt _ | ldVxK _ | ldDtVx _ | ldStVx _ => exact exec_setRnd rfl rfl h

end Sys2Proof.Machine
end

section
/-! PROOF. Memory (spec/20_memory.md): which instructions write it and where (R60, R65), and that what is written is
fetched (R78). -/

namespace Sys2Proof.Machine

/-! ## Stores at I (R65, R143) -/

/-- A store at I changes only the bytes it stores, all of them inside memory. -/
theorem storeAtI_changes {i : Instr} {bytes : List Byte} {s t : State} {a : Nat} (hm : Memory.wf s.mem = true)
    (h0 : bytes ≠ []) (h : storeAtI i bytes s = .next t) (ha : Memory.byteAt t.mem a ≠ Memory.byteAt s.mem a) :
    a < Config.memSize ∧ s.dataAddr ≤ a ∧ a < s.dataAddr + bytes.length := by
  by_cases hb : s.dataAddr + bytes.length ≤ Config.memSize
  · rw [← Host.Outcome.next.inj ((storeAtI_inside hb).symm.trans h), State.act_mem, Memory.byteAt_setBytes hm hb] at ha
    have hin : s.dataAddr ≤ a ∧ a < s.dataAddr + bytes.length := by
      by_contra hout
      exact ha (if_neg hout)
    exact ⟨hin.2.trans_le hb, hin⟩
  · have ht := Host.Outcome.next.inj ((storeAtI_outside h0 (Nat.not_le.1 hb)).symm.trans h)
    exact absurd (congrArg (fun u => Memory.byteAt u.mem a) ht.symm) ha

/-- Where V0..Vx are stored at I, byte `I + r` is `V[r]` (R143). -/
theorem byteAt_storedRegs {s : State} {x : RegIdx} (hm : Memory.wf s.mem = true)
    (hb : s.dataAddr + (s.regsUpTo x).length ≤ Config.memSize) (r : RegIdx) (hr : r.val ≤ x.val) :
    Memory.byteAt (Memory.setBytes s.mem s.dataAddr (s.regsUpTo x)) (s.dataAddr + r.val) = s.reg r := by
  have hlen := State.length_regsUpTo s x
  rw [Memory.byteAt_setBytes hm hb, if_pos (by omega), Nat.add_sub_cancel_left, State.getD_regsUpTo s x r hr]

/-- Settles O31: the store is inside memory, and PC then stands at I, where V0 and V1 are the first two bytes stored. -/
theorem storedWordIsFetchedNext : Obligations.StoredWordIsFetchedNext := by
  intro s t x hm hx hi _ hend h
  have hI : s.dataAddr + x.val ≤ 0xFFF := hend
  have hb : s.dataAddr + (s.regsUpTo x).length ≤ Config.memSize := by
    rw [State.length_regsUpTo]
    exact Nat.succ_le_succ hI
  have ht := (Host.Outcome.next.inj ((storeAtI_inside hb).symm.trans h)).symm
  have hpc : t.pc.toNat = s.dataAddr := by rw [ht, State.dataAddr, hi]; rfl
  have hmem : t.mem = Memory.setBytes s.mem s.dataAddr (s.regsUpTo x) := by rw [ht, State.act_mem]
  have hV0 : Memory.byteAt t.mem s.dataAddr = s.reg 0 := hmem ▸ byteAt_storedRegs hm hb 0 (Nat.zero_le _)
  have hV1 : Memory.byteAt t.mem (s.dataAddr + 1) = s.reg 1 := hmem ▸ byteAt_storedRegs hm hb 1 hx
  rw [State.fetch_inside (by omega), hpc, hV0, hV1]

/-- Settles O56: of the effects only a store changes memory, with 3 bytes (Fx33) or x + 1 bytes (Fx55) at I. -/
theorem onlyTwoInstructionsWriteMemory : Obligations.OnlyTwoInstructionsWriteMemory := by
  intro i s t a hm h ha
  cases ExecEffect.of_exec h with
  | store bytes hi _ _ =>
    rcases hi with ⟨x, rfl⟩ | ⟨x, rfl⟩
    · obtain ⟨hmem, hlo, hhi⟩ := storeAtI_changes hm (List.cons_ne_nil _ _) h ha
      exact ⟨Nat.le_of_lt_succ hmem, .inl ⟨⟨x, rfl⟩, hlo, Nat.le_of_lt_succ hhi⟩⟩
    · obtain ⟨hmem, hlo, hhi⟩ := storeAtI_changes hm (List.ne_nil_of_length_pos (by simp)) h ha
      rw [State.length_regsUpTo] at hhi
      exact ⟨Nat.le_of_lt_succ hmem, .inr ⟨x, rfl, hlo, Nat.le_of_lt_succ hhi⟩⟩
  | fatal _ ht | dest _ _ _ ht | flag _ _ _ _ ht | rnd _ _ _ ht | load _ _ ht | skip _ _ ht | jump _ _ _ ht
  | call _ _ _ ht | ret _ _ _ _ ht | index _ _ _ ht | addI _ _ ht | clear _ ht | draw _ _ _ _ ht | timer _ _ _ ht
  | keyWait _ _ ht => exact absurd (ht ▸ rfl) ha

end Sys2Proof.Machine
end

section
/-! PROOF. The encoding (spec/30_encoding.md): decoding undoes encoding, encoding undoes decoding, and the words that do
not decode are those of R92. -/

namespace Sys2Proof

/-! ## Decode of encode (R87, R90) -/

/-- A word built by its format has the fields it was built of, so the opcode map leads back to the instruction. -/
theorem decodeWord_encode {i : Instr} (h : i.WellFormed) : decodeWord (encode i) = .ok i := by
  cases i with
  | cls | ret => rfl
  | jp _ | call _ | ldI _ | jpV0 _ | seImm _ _ | sneImm _ _ | ldImm _ _ | addImm _ _ | rnd _ _ | seReg _ _
  | sneReg _ _ => simp [encode, decodeWord]
  | ldReg _ _ | orReg _ _ | andReg _ _ | xorReg _ _ | addReg _ _ | sub _ _ | shr _ _ | subn _ _ | shl _ _ =>
    simp [encode, decodeWord, decodeFamily8]
  | drw x y n =>
    have hn : n ≤ 15 := of_decide_eq_true h
    simp [encode, decodeWord, Nat.mod_eq_of_lt (Nat.lt_succ_of_le hn)]
  | skp _ | sknp _ => simp [encode, decodeWord, decodeFamilyE]
  | ldVxDt _ | ldVxK _ | ldDtVx _ | ldStVx _ | addI _ | ldF _ | ldB _ | ldMemVx _ | ldVxMem _ =>
    simp [encode, decodeWord, decodeFamilyF]

/-- Settles O2: the stored bytes make up the word again, and the word decodes to its instruction. -/
theorem decodeOfEncodeIsIdentity : Obligations.DecodeOfEncodeIsIdentity := by
  intro i rest h
  rw [decode_bytesOfWord_append, decodeWord_encode h]
  rfl

/-! ## Encode of decode (R81 to R87, R90) -/

theorem encode_of_decodeFamily8 {op : Word} {i : Instr} (hf : (fieldFamily op).toNat = 0x8)
    (h : decodeFamily8 op = .ok i) : encode i = op ∧ i.WellFormed := by
  unfold decodeFamily8 at h
  split at h
  iterate 9 next hn => exact Except.ok.inj h ▸ ⟨formatXYN_of_family_n hf hn, rfl⟩
  · cases h

theorem encode_of_decodeFamilyE {op : Word} {i : Instr} (hf : (fieldFamily op).toNat = 0xE)
    (h : decodeFamilyE op = .ok i) : encode i = op ∧ i.WellFormed := by
  unfold decodeFamilyE at h
  split at h
  iterate 2 next hk => exact Except.ok.inj h ▸ ⟨formatXKK_of_family_kk hf hk, rfl⟩
  · cases h

theorem encode_of_decodeFamilyF {op : Word} {i : Instr} (hf : (fieldFamily op).toNat = 0xF)
    (h : decodeFamilyF op = .ok i) : encode i = op ∧ i.WellFormed := by
  unfold decodeFamilyF at h
  split at h
  iterate 9 next hk => exact Except.ok.inj h ▸ ⟨formatXKK_of_family_kk hf hk, rfl⟩
  · cases h

/-- The count of a sprite is read from four bits, so it is one that `Dxyn` can hold (R84). -/
theorem wellFormed_drw_fieldN (op : Word) : (Instr.drw (fieldX op) (fieldY op) (fieldN op).toNat).WellFormed :=
  decide_eq_true (Nat.le_of_lt_succ (fieldN op).isLt)

/-- Settles O3: an arm of the opcode map reads every field that its format holds, and matches the digits it does not
read, so the format gives the word back. -/
theorem encodeOfDecodeIsIdentity : Obligations.EncodeOfDecodeIsIdentity := by
  intro op i h
  unfold decodeWord at h
  split at h
  -- family 0
  next =>
    split_ifs at h with hcls hret
    · exact Except.ok.inj h ▸ ⟨hcls.symm, rfl⟩
    · exact Except.ok.inj h ▸ ⟨hret.symm, rfl⟩
  -- families 1 and 2, 3 and 4, 5
  iterate 2 next hf => exact Except.ok.inj h ▸ ⟨formatNNN_of_family hf, rfl⟩
  iterate 2 next hf => exact Except.ok.inj h ▸ ⟨formatXKK_of_family hf, rfl⟩
  next hf =>
    split_ifs at h with hn
    exact Except.ok.inj h ▸ ⟨formatXYN_of_family_n hf (congrArg BitVec.toNat hn), rfl⟩
  -- families 6 and 7, 8, 9
  iterate 2 next hf => exact Except.ok.inj h ▸ ⟨formatXKK_of_family hf, rfl⟩
  next hf => exact encode_of_decodeFamily8 hf h
  next hf =>
    split_ifs at h with hn
    exact Except.ok.inj h ▸ ⟨formatXYN_of_family_n hf (congrArg BitVec.toNat hn), rfl⟩
  -- families A and B, C, D, E, F
  iterate 2 next hf => exact Except.ok.inj h ▸ ⟨formatNNN_of_family hf, rfl⟩
  next hf => exact Except.ok.inj h ▸ ⟨formatXKK_of_family hf, rfl⟩
  next hf => exact Except.ok.inj h ▸ ⟨formatXYN_of_family_n hf rfl, wellFormed_drw_fieldN op⟩
  next hf => exact encode_of_decodeFamilyE hf h
  next hf => exact encode_of_decodeFamilyF hf h
  next => cases h

/-! ## The words that do not decode (R92) -/

/-- R92's list, in the fields that the decoder reads. -/
theorem unsupportedWord_iff_fields {op : Word} : Machine.UnsupportedWord op ↔
    ((fieldFamily op).toNat = 0 ∧ op ≠ 0x00E0 ∧ op ≠ 0x00EE) ∨
      ((fieldFamily op).toNat = 5 ∧ fieldN op ≠ 0) ∨
      ((fieldFamily op).toNat = 8 ∧ (8 ≤ (fieldN op).toNat ∧ (fieldN op).toNat ≤ 13 ∨ (fieldN op).toNat = 15)) ∨
      ((fieldFamily op).toNat = 9 ∧ fieldN op ≠ 0) ∨
      ((fieldFamily op).toNat = 14 ∧ (fieldKK op).toNat ≠ 0x9E ∧ (fieldKK op).toNat ≠ 0xA1) ∨
      ((fieldFamily op).toNat = 15 ∧
        (fieldKK op).toNat ∉ [0x07, 0x0A, 0x15, 0x18, 0x1E, 0x29, 0x33, 0x55, 0x65]) := by
  have hlow : op.toNat ≤ 0x0FFF ↔ op.toNat / 4096 = 0 := by omega
  have hn : fieldN op ≠ 0 ↔ op.toNat % 16 ≠ 0 := by rw [← toNat_fieldN, Ne, BitVec.toNat_eq]; rfl
  rw [Machine.UnsupportedWord, hn, toNat_fieldFamily, toNat_fieldN, toNat_fieldKK, hlow]

/-- Where an arm of the opcode map rejects a word that the list has. -/
theorem error_unsupported_eq_iff {op : Word} {e : DecodeError} {P : Prop} (hP : P) :
    (.error (.unsupported op) : Except DecodeError Instr) = .error e ↔ e = .unsupported op ∧ P := by
  simp [hP, eq_comm (a := e)]

theorem decodeFamily8_eq_error_iff {op : Word} {e : DecodeError} : decodeFamily8 op = .error e ↔
    e = .unsupported op ∧ (8 ≤ (fieldN op).toNat ∧ (fieldN op).toNat ≤ 13 ∨ (fieldN op).toNat = 15) := by
  unfold decodeFamily8
  split
  iterate 9 next hn => simp [hn]
  next =>
    simp only [imp_false] at *
    exact error_unsupported_eq_iff (by omega)

theorem decodeFamilyE_eq_error_iff {op : Word} {e : DecodeError} : decodeFamilyE op = .error e ↔
    e = .unsupported op ∧ (fieldKK op).toNat ≠ 0x9E ∧ (fieldKK op).toNat ≠ 0xA1 := by
  unfold decodeFamilyE
  split
  iterate 2 next hk => simp [hk]
  next h1 h2 => exact error_unsupported_eq_iff ⟨h1, h2⟩

theorem decodeFamilyF_eq_error_iff {op : Word} {e : DecodeError} : decodeFamilyF op = .error e ↔
    e = .unsupported op ∧ (fieldKK op).toNat ∉ [0x07, 0x0A, 0x15, 0x18, 0x1E, 0x29, 0x33, 0x55, 0x65] := by
  unfold decodeFamilyF
  split
  iterate 9 next hk => simp [hk]
  next =>
    simp only [imp_false] at *
    exact error_unsupported_eq_iff (by simp [*])

/-- Settles O4: each arm of the opcode map fails on the words that the list has of its family. -/
theorem unsupportedWordsAreThoseListed : Obligations.UnsupportedWordsAreThoseListed := by
  intro op e
  rw [unsupportedWord_iff_fields]
  unfold decodeWord
  split
  -- families 0, 1 to 4
  next hf => simp [hf, ite_eq_iff, eq_comm (a := e), and_comm, and_assoc]
  iterate 4 next hf => simp [hf]
  -- families 5, 6 and 7
  next hf => simp [hf, ite_eq_iff, eq_comm (a := e), and_comm]
  iterate 2 next hf => simp [hf]
  -- families 8, 9, A to D
  next hf => simp [hf, decodeFamily8_eq_error_iff]
  next hf => simp [hf, ite_eq_iff, eq_comm (a := e), and_comm]
  iterate 4 next hf => simp [hf]
  -- families E, F, and no other
  next hf => simp [hf, decodeFamilyE_eq_error_iff]
  next hf => simp [hf, decodeFamilyF_eq_error_iff]
  next =>
    have := (fieldFamily op).isLt
    simp only [imp_false] at *
    omega

/-! ## Words of the spec's examples -/

/-- Settles O1: fixed words, decoded. -/
theorem specWordsDecode : Obligations.SpecWordsDecode := by
  unfold Obligations.SpecWordsDecode
  decide

end Sys2Proof
end

section
/-! PROOF. The cycle (spec/40_cycle.md): what each of its paths answers, and PC after an instruction. -/

namespace Sys2Proof.Machine

/-! ## PC (R103 to R106) -/

/-- Settles O23: the effects that set PC are those of the jumps, CALL and RET, and of the others a skip has a choice and
the key wait holds. -/
theorem pcFollowsTheInstructionKind : Obligations.PcFollowsTheInstructionKind := by
  intro i s t h _ hsafe
  cases ExecEffect.of_exec h with
  | fatal code ht => exact absurd (ht ▸ State.raiseIn_mode ..) (hsafe _)
  | jump _ hi _ _ => exact .inl hi
  | call _ hi _ _ | ret _ hi _ _ _ => exact .inl (by simp [setsPc, hi])
  | skip c hi ht =>
    have hpc : t.pc = s.pc + 4 ∨ t.pc = s.pc + 2 := by
      rw [ht, State.act_pc, nextPc_skipIf]
      exact ite_eq_or_eq ..
    exact .inr (.inl ⟨hi, hpc⟩)
  | keyWait x hi ht => exact .inr (.inr (.inl ⟨⟨x, hi⟩, ht ▸ rfl⟩))
  | dest _ _ _ ht | flag _ _ _ _ ht | rnd _ _ _ ht | load _ _ ht | index _ _ _ ht | addI _ _ ht | clear _ ht
  | draw _ _ _ _ ht | store _ _ _ ht | timer _ _ _ ht => exact .inr (.inr (.inr (ht ▸ rfl)))

/-! ## The paths of a cycle (R97 to R102, R107) -/

/-- A cycle that executes an instruction is the request, the instruction, and what follows it (R100). -/
theorem step_executed {s t : State} {op : Word} {i : Instr} (hm : s.mode = .running) (hf : s.fetch = some op)
    (hd : decodeWord op = .ok i) (he : exec i s.beginCycle = .next t) : step s = .next (t.afterExec s.sound) := by
  rw [step_fetched hm hf, State.runWord_decoded hd he, State.beginCycle_sound]

/-- A cycle that fetches a word that does not decode (R107). -/
theorem step_unsupported {s : State} {op : Word} {e : DecodeError} (hm : s.mode = .running) (hf : s.fetch = some op)
    (hd : decodeWord op = .error e) :
    step s = .next ((s.beginCycle.act .advance).endCycle s.sound (.unsupported op s.pc)) := by
  rw [step_fetched hm hf, State.runWord_unsupported hd, State.beginCycle_sound, State.beginCycle_pc]

/-- Settles O51: each path of the cycle has its equation, and the instruction on the last of them answers a next state. -/
theorem everyCycleAnswersANextState : Obligations.EveryCycleAnswersANextState := by
  intro s
  cases hm : s.mode with
  | faulted rec => exact ⟨_, step_faulted hm⟩
  | awaitingKey x => exact ⟨_, step_awaiting hm⟩
  | running =>
    cases hf : s.fetch with
    | none => exact ⟨_, step_notFetched hm hf⟩
    | some op =>
      cases hd : decodeWord op with
      | error e => exact ⟨_, step_unsupported hm hf hd⟩
      | ok i =>
        obtain ⟨t, he, -⟩ := exec_effect i s.beginCycle
        exact ⟨_, step_executed hm hf hd he⟩

/-- Two bytes decode as the word they make up (R67, R80). -/
theorem decodeWord_of_decode {hi lo : Byte} {i : Instr} (h : decode [hi, lo] = .ok (i, [])) :
    decodeWord (hi ++ lo) = .ok i := by
  cases hw : decodeWord (hi ++ lo) with
  | ok j => simpa [decode, hw] using h
  | error e => simp [decode, hw] at h

/-- Settles O42: the bytes at PC are the word fetched, and the cycle goes on after the instruction unless it is fatal. -/
theorem stepRunsTheDecodedInstruction : Obligations.StepRunsTheDecodedInstruction := by
  intro s t i hm hpc hd he
  have hstep := step_executed hm (State.fetch_inside hpc) (decodeWord_of_decode hd) he
  refine ⟨fun ⟨rec, hrec⟩ => ?_, fun hsafe => ?_⟩
  · rw [hstep, State.afterExec_faulted hrec]
  · rw [hstep, State.afterExec_safe hsafe]
    rfl

/-- Settles O43: PC does not enter into the tick, so the order of the two does not show. -/
theorem unsupportedWordIsANoOp : Obligations.UnsupportedWordIsANoOp := by
  intro s op e hm hf hd
  exact ⟨_, step_unsupported hm hf hd, rfl, rfl, hm, rfl, fun _ => rfl⟩

/-- Settles O44: the fetched word has the two bytes as its halves, and past 0xFFE nothing is fetched. -/
theorem fetchReadsTwoBytesOrFaults : Obligations.FetchReadsTwoBytesOrFaults := by
  intro s
  refine ⟨fun hpc => ⟨_, State.fetch_inside hpc, ?_, ?_⟩, fun hpc hm => ?_⟩
  · exact BitVec.extractLsb'_append_eq_left
  · exact BitVec.extractLsb'_append_eq_right
  · rw [step_notFetched hm (State.fetch_outside hpc)]
    rfl

/-- Settles O45: it is the first path of the cycle (`step_faulted`). -/
theorem faultedIsTerminal : Obligations.FaultedIsTerminal := by
  intro s rec hm
  rw [step_faulted hm]
  rfl

/-! ## The key wait (R99) -/

/-- Settles O46: `k` is the lowest pressed key or there is none, and the wait ends with it or holds. -/
theorem keyWaitEndsWithTheLowestKey : Obligations.KeyWaitEndsWithTheLowestKey := by
  intro s x hm
  rw [step_awaiting hm]
  refine ⟨fun k hk hpressed hlower => ?_, fun hnone => ?_⟩
  · have hx : ((s.setReg x (BitVec.ofNat 8 k)).reg x).toNat = k := by
      rw [State.reg_setReg, if_pos rfl, BitVec.toNat_ofNat, Nat.mod_eq_of_lt (by omega)]
    have hother : ∀ r, r ≠ x → (s.setReg x (BitVec.ofNat 8 k)).reg r = s.reg r := fun r hr => by
      rw [State.reg_setReg, if_neg hr]
    rw [State.checkKeys_pressed x (lowestPressed_eq_some.2 ⟨hk, hpressed, hlower⟩)]
    exact ⟨_, rfl, hx, hother, rfl, rfl, rfl, rfl, fun _ => rfl⟩
  · rw [State.checkKeys_none x (lowestPressed_eq_none.2 hnone)]
    exact ⟨_, rfl, rfl, hm, rfl, rfl, fun _ => rfl⟩

/-! ## Placing an instruction (log 11) -/

theorem State.withFetchWord_toNat (s : State) (op : Word) : s.withFetchWord 16 op.toNat = s.placeWord op := by
  rw [State.withFetchWord, Nat.mod_eq_of_lt op.isLt, BitVec.ofNat_toNat, BitVec.setWidth_eq]

/-- A word is placed where the whole of it is inside memory. -/
theorem State.placeWord_pc_le (s : State) (op : Word) : (s.placeWord op).pc.toNat ≤ 0xFFE := by
  simp only [State.placeWord]
  split
  next h =>
    have := inBounds_iff.1 h
    simp only [Config.memSize] at this
    omega
  next => decide

/-- The placed word is the next one fetched. -/
theorem State.fetch_placeWord {s : State} (hm : Memory.wf s.mem = true) (op : Word) :
    (s.placeWord op).fetch = some op := by
  have hpc := s.placeWord_pc_le op
  have hmem : (s.placeWord op).mem = Memory.setBytes s.mem (s.placeWord op).pc.toNat (bytesOfWord op) := rfl
  have hin : (s.placeWord op).pc.toNat + (bytesOfWord op).length ≤ Config.memSize := by
    simp only [bytesOfWord, List.length_cons, List.length_nil, Config.memSize]
    omega
  rw [State.fetch_inside hpc, hmem, Memory.byteAt_setBytes hm hin, Memory.byteAt_setBytes hm hin]
  simp [bytesOfWord]

/-- Settles O60: the placed word is fetched, and it decodes to the instruction it encodes. -/
theorem placedInstructionRunsNext : Obligations.PlacedInstructionRunsNext := by
  intro s i hm hi
  rw [State.withFetchWord_toNat]
  have hf := State.fetch_placeWord hm (encode i)
  obtain ⟨t, he, -⟩ := exec_effect i (s.placeWord (encode i)).beginCycle
  exact ⟨rfl, hf, t, he, step_executed rfl hf (decodeWord_encode hi) he⟩

end Sys2Proof.Machine
end

section
/-! PROOF. Control transfer (spec/41_control.md): jumps, the register skips, CALL and RET. -/

namespace Sys2Proof.Machine

/-! ## Effects -/

/-- An instruction that only answers a PC action goes where the action leads (R103). -/
theorem goesTo_of_act {i : Instr} {s : State} {a : PcAction} {target : Word} (he : exec i s = .next (s.act a))
    (ha : nextPc s.pc a = target) : GoesTo i s target :=
  ⟨s.act a, he, ha, rfl, fun _ => rfl⟩

/-- Raising a fatal error changes the mode and the cycle's results alone (R163). -/
theorem takesFatal_of_raiseIn {i : Instr} {s : State} {code : FatalCode}
    (he : exec i s = .next (s.raiseIn code i)) : TakesFatal i s code := he

/-! ## Jumps (R114, R120) -/

/-- Settles O18: both answer `Set`, and the sum of 12 and 8 bits needs no mask. -/
theorem jumpsSetPc : Obligations.JumpsSetPc := by
  intro s nnn
  have hsum : nnn.toNat + (s.reg 0).toNat ≤ 0x10FE := by omega
  exact ⟨decodeWord_encode (i := .jp nnn) rfl, goesTo_of_act rfl rfl, decodeWord_encode (i := .jpV0 nnn) rfl,
    goesTo_of_act rfl rfl, hsum⟩

/-! ## Register skips (R116 to R119) -/

/-- A word 5xyN or 9xyN with N not 0 matches no pattern (R92). -/
theorem decodeWord_formatXYN_unsupported {f n : BitVec 4} (x y : RegIdx) (hf : f = 0x5 ∨ f = 0x9) (hn : n ≠ 0) :
    decodeWord (formatXYN f x y n) = .error (.unsupported (formatXYN f x y n)) := by
  refine (unsupportedWordsAreThoseListed _ _).2 ⟨rfl, unsupportedWord_iff_fields.2 ?_⟩
  rw [fieldFamily_formatXYN, fieldN_formatXYN]
  rcases hf with rfl | rfl
  · exact .inr (.inl ⟨rfl, hn⟩)
  · exact .inr (.inr (.inr (.inl ⟨rfl, hn⟩)))

/-- The two skips on equality go to PC + 4 where the bytes are equal. -/
theorem nextPc_skipIf_beq (pc0 : Word) (a b : Byte) :
    nextPc pc0 (skipIf (a == b)) = if a = b then pc0 + 4 else pc0 + 2 := by
  simp only [nextPc_skipIf, beq_iff_eq]

/-- The two skips on inequality go to PC + 2 where the bytes are equal. -/
theorem nextPc_skipIf_bne (pc0 : Word) (a b : Byte) :
    nextPc pc0 (skipIf (a != b)) = if a = b then pc0 + 2 else pc0 + 4 := by
  simp only [nextPc_skipIf, bne_iff_ne, ite_not]

/-- Settles O19: each skip answers `skipIf` of its condition. -/
theorem registerSkipsFollowTheirCondition : Obligations.RegisterSkipsFollowTheirCondition := by
  intro s x y kk
  exact ⟨decodeWord_encode (i := .seImm x kk) rfl, goesTo_of_act rfl (nextPc_skipIf_beq ..),
    decodeWord_encode (i := .sneImm x kk) rfl, goesTo_of_act rfl (nextPc_skipIf_bne ..),
    decodeWord_encode (i := .seReg x y) rfl, goesTo_of_act rfl (nextPc_skipIf_beq ..),
    decodeWord_encode (i := .sneReg x y) rfl, goesTo_of_act rfl (nextPc_skipIf_bne ..),
    fun _ hn => ⟨decodeWord_formatXYN_unsupported x y (.inl rfl) hn,
      decodeWord_formatXYN_unsupported x y (.inr rfl) hn⟩⟩

/-! ## CALL and RET (R113, R115) -/

/-- Settles O20: a push writes the slot at SP and leaves the others (R27), and a full stack takes none. -/
theorem callPushesTheReturnAddress : Obligations.CallPushesTheReturnAddress := by
  intro s nnn
  refine ⟨decodeWord_encode (i := .call nnn) rfl, fun hs => ?_, fun hs => takesFatal_of_raiseIn (execCall_full nnn hs)⟩
  have hslot : ∀ j : Fin Config.stackCapacity, (s.stack.set s.sp.val (s.pc + 2) hs)[j.val] =
      if j.val = s.sp.val then s.pc + 2 else s.stack[j.val] := fun j => by
    simp only [Vector.getElem_set, eq_comm]
  exact ⟨_, execCall_room nnn hs, rfl, rfl, hslot, rfl, fun _ => rfl⟩

/-- Settles O21: a pop takes the entry below SP and changes SP alone (R28), and an empty stack has none. -/
theorem retPopsTheReturnAddress : Obligations.RetPopsTheReturnAddress := by
  intro s
  refine ⟨rfl, fun j hs => ?_, fun hs => takesFatal_of_raiseIn (execRet_empty hs)⟩
  exact ⟨_, execRet_entry hs j.isLt, rfl, rfl, rfl, fun _ => rfl⟩

/-- Settles O22: the CALL leaves its return address at the slot that the RET then pops (O20, O21). -/
theorem retReturnsPastTheCall : Obligations.RetReturnsPastTheCall := by
  intro s t u nnn hs hcall hstack hsp
  obtain ⟨-, hpush, -⟩ := callPushesTheReturnAddress s nnn
  obtain ⟨t', ht', hsp', -, hslot, -, -⟩ := hpush hs
  obtain rfl : t = t' := Host.Outcome.next.inj (hcall.symm.trans ht')
  have hentry : t.stack[s.sp.val] = s.pc + 2 := (hslot ⟨s.sp.val, hs⟩).trans (if_pos rfl)
  obtain ⟨-, hpop, -⟩ := retPopsTheReturnAddress u
  obtain ⟨w, hret, hpc, hdepth, hframe, -⟩ := hpop ⟨s.sp.val, hs⟩ ((congrArg Fin.val hsp).trans hsp')
  refine ⟨w, hret, ?_, Fin.ext hdepth, hframe⟩
  simp only [hpc, hstack, hentry]

end Sys2Proof.Machine
end

section
/-! PROOF. Loads, arithmetic, logic, shifts, random (spec/42_alu.md): the two shapes of a register write, and the values
written as operations on bytes. -/

namespace Sys2Proof.Machine

/-! ## Effects -/

/-- An instruction that writes Vx alone (R125 to R130). -/
theorem writesRegs_of_writeReg {i : Instr} {s : State} {x : RegIdx} {b : Byte} (he : exec i s = writeReg x b s) :
    WritesRegs i s (fun r => if r = x then b else s.reg r) :=
  ⟨(s.setReg x b).act .advance, he, fun r => State.reg_setReg s x r b, rfl, rfl, fun _ => rfl⟩

/-- An instruction that writes Vx and then VF: where x = F the flag is what stays (R122). -/
theorem writesRegs_of_writeRegFlag {i : Instr} {s : State} {x : RegIdx} {b : Byte} {c : Bool}
    (he : exec i s = writeRegFlag x b c s) :
    WritesRegs i s (fun r => if r = 15 then flagByte c else if r = x then b else s.reg r) := by
  refine ⟨((s.setReg x b).setFlag c).act .advance, he, fun r => ?_, rfl, rfl, fun _ => rfl⟩
  rw [State.reg_act, State.reg_setFlag, State.reg_setReg]

/-! ## Values (R121 to R123, R132 to R135) -/

theorem flagByte_decide (p : Prop) [Decidable p] : flagByte (decide p) = if p then 1 else 0 := by
  simp only [flagByte, decide_eq_true_eq]

theorem diff8_eq_sub (a b : Byte) : diff8 a b = a - b := by
  apply BitVec.eq_of_toNat_eq
  rw [toNat_diff8, BitVec.toNat_sub]
  congr 1
  omega

theorem half8_eq_ushiftRight (a : Byte) : half8 a = a >>> 1 := by
  apply BitVec.eq_of_toNat_eq
  rw [toNat_half8, BitVec.toNat_ushiftRight, Nat.shiftRight_one]

theorem double8_eq_shiftLeft (a : Byte) : double8 a = a <<< 1 := by
  apply BitVec.eq_of_toNat_eq
  rw [toNat_double8, BitVec.toNat_shiftLeft, Nat.shiftLeft_eq, Nat.pow_one]

/-! ## Loads, immediate addition and logic: no flag (R125 to R130) -/

/-- Settles O10: both loads write Vx alone. -/
theorem loadsWriteVx : Obligations.LoadsWriteVx := by
  intro s x y kk
  exact ⟨decodeWord_encode (i := .ldImm x kk) rfl, writesRegs_of_writeReg rfl,
    decodeWord_encode (i := .ldReg x y) rfl, writesRegs_of_writeReg rfl⟩

/-- Settles O11: the sum goes to Vx, and no flag is written after it. -/
theorem addImmediateWrapsWithoutFlag : Obligations.AddImmediateWrapsWithoutFlag := by
  intro s x kk
  exact ⟨decodeWord_encode (i := .addImm x kk) rfl, writesRegs_of_writeReg rfl⟩

/-- Settles O12: both write Vx alone, so VF changes only as Vx. -/
theorem andXorWriteVx : Obligations.AndXorWriteVx := by
  intro s x y
  exact ⟨decodeWord_encode (i := .andReg x y) rfl, writesRegs_of_writeReg rfl,
    decodeWord_encode (i := .xorReg x y) rfl, writesRegs_of_writeReg rfl⟩

/-- Settles O13: OR writes Vx alone (D7). -/
theorem orWritesVx : Obligations.OrWritesVx := by
  intro s x y
  exact ⟨decodeWord_encode (i := .orReg x y) rfl, writesRegs_of_writeReg rfl⟩

/-! ## Arithmetic and shifts: the flag is written last (R131 to R135) -/

/-- Settles O14: the flag is the carry out of the sum. -/
theorem addRegistersSetsCarry : Obligations.AddRegistersSetsCarry := by
  intro s x y
  refine ⟨decodeWord_encode (i := .addReg x y) rfl, ?_⟩
  simp only [← flagByte_decide]
  exact writesRegs_of_writeRegFlag rfl

/-- Settles O15: the difference of the spec's formula is the one of bytes, and the flag is the comparison. -/
theorem subtractionsSetNoBorrow : Obligations.SubtractionsSetNoBorrow := by
  intro s x y
  simp only [← flagByte_decide, ← diff8_eq_sub]
  exact ⟨decodeWord_encode (i := .sub x y) rfl, writesRegs_of_writeRegFlag rfl,
    decodeWord_encode (i := .subn x y) rfl, writesRegs_of_writeRegFlag rfl⟩

/-- Settles O16: half and double of a byte are its shifts by one, and the flag is the bit that leaves. -/
theorem shiftsSetShiftedOutBit : Obligations.ShiftsSetShiftedOutBit := by
  intro s x y
  simp only [← half8_eq_ushiftRight, ← double8_eq_shiftLeft]
  exact ⟨decodeWord_encode (i := .shr x y) rfl, writesRegs_of_writeRegFlag rfl,
    decodeWord_encode (i := .shl x y) rfl, writesRegs_of_writeRegFlag rfl⟩

/-! ## Random (R136) -/

/-- Settles O17: RND marks the byte as taken and writes Vx alone. -/
theorem randomTakesAndMasksTheByte : Obligations.RandomTakesAndMasksTheByte := by
  intro s x kk
  have hreg : ∀ r, (s.setReg x (s.rnd &&& kk)).reg r = if r = x then s.rnd &&& kk else s.reg r :=
    fun r => State.reg_setReg s x r (s.rnd &&& kk)
  exact ⟨decodeWord_encode (i := .rnd x kk) rfl, _, rfl, (hreg x).trans (if_pos rfl),
    fun r hr => (hreg r).trans (if_neg hr), rfl, rfl, rfl, fun _ => rfl⟩

end Sys2Proof.Machine
end

section
/-! PROOF. I, and transfers between the V registers and memory at I (spec/43_index_memory.md). -/

namespace Sys2Proof.Machine

/-! ## Storing at I (R65, R72) -/

/-- Bytes stored at I leave the bytes around them as they are. -/
theorem sameMemoryOutside_stored {s t : State} {bytes : List Byte} (hm : Memory.wf s.mem = true)
    (hb : s.dataAddr + bytes.length ≤ Config.memSize) (ht : t.mem = Memory.setBytes s.mem s.dataAddr bytes) :
    SameMemoryOutside s.dataAddr bytes.length s t := by
  intro c hc
  rw [ht, Memory.byteAt_setBytes hm hb, if_neg (by omega)]

/-- `bcdDigits_value`, digit by digit. -/
theorem toNat_getD_bcdDigits (b : Byte) (k : Nat) :
    ((bcdDigits b).getD k 0).toNat = [b.toNat / 100, b.toNat / 10 % 10, b.toNat % 10].getD k 0 := by
  rw [← bcdDigits_value]
  exact (List.getD_map ..).symm

/-- Where the digits of a byte are stored at I, byte `I + k` is digit `k` (R142). -/
theorem toNat_byteAt_storedDigits {s : State} {b : Byte} (hm : Memory.wf s.mem = true)
    (hb : s.dataAddr + (bcdDigits b).length ≤ Config.memSize) (k : Nat) (hk : k < 3) :
    (Memory.byteAt (Memory.setBytes s.mem s.dataAddr (bcdDigits b)) (s.dataAddr + k)).toNat =
      [b.toNat / 100, b.toNat / 10 % 10, b.toNat % 10].getD k 0 := by
  have hlen : (bcdDigits b).length = 3 := rfl
  rw [Memory.byteAt_setBytes hm hb, if_pos (by omega), Nat.add_sub_cancel_left, toNat_getD_bcdDigits]

/-- Settles O27: the bytes stored are the three digits, and 0xFFD is the last address with room for them. -/
theorem bcdStoresThreeDigits : Obligations.BcdStoresThreeDigits := by
  intro s x hm
  refine ⟨decodeWord_encode (i := .ldB x) rfl, fun a ha hend => ?_, fun hend => ?_⟩
  · subst ha
    have hb : s.dataAddr + (bcdDigits (s.reg x)).length ≤ Config.memSize := Nat.add_le_add_right hend 3
    have hdigit := toNat_byteAt_storedDigits hm hb
    exact ⟨_, storeAtI_inside hb, hdigit 0 (by decide), hdigit 1 (by decide), hdigit 2 (by decide),
      sameMemoryOutside_stored hm hb rfl, rfl, rfl⟩
  · have hb : Config.memSize < s.dataAddr + (bcdDigits (s.reg x)).length := Nat.add_lt_add_right hend 3
    exact takesFatal_of_raiseIn (storeAtI_outside (List.cons_ne_nil _ _) hb)

/-- Settles O28: byte `r` of those stored is `V[r]`, and there are x + 1 of them. -/
theorem storeWritesV0ToVx : Obligations.StoreWritesV0ToVx := by
  intro s x hm
  have hlen := s.length_regsUpTo x
  refine ⟨decodeWord_encode (i := .ldMemVx x) rfl, fun a ha hend => ?_, fun hend => ?_⟩
  · subst ha
    have hb : s.dataAddr + (s.regsUpTo x).length ≤ Config.memSize := hlen ▸ Nat.succ_le_succ hend
    exact ⟨_, storeAtI_inside hb, byteAt_storedRegs hm hb, hlen ▸ sameMemoryOutside_stored hm hb rfl, rfl, rfl⟩
  · have hb : Config.memSize < s.dataAddr + (s.regsUpTo x).length := hlen ▸ Nat.succ_lt_succ hend
    exact takesFatal_of_raiseIn (storeAtI_outside (List.ne_nil_of_length_pos (by omega)) hb)

/-! ## Loading from I (R65, R72) -/

/-- Settles O29: the registers after the load are those of `reg_loaded`. -/
theorem loadReadsV0ToVx : Obligations.LoadReadsV0ToVx := by
  intro s x
  exact ⟨decodeWord_encode (i := .ldVxMem x) rfl,
    fun h => ⟨_, execLdVxMem_inside h, fun r => reg_loaded s x r s.dataAddr, rfl, rfl, fun _ => rfl⟩,
    fun h => takesFatal_of_raiseIn (execLdVxMem_outside h)⟩

/-- Settles O30: byte I + r holds `V[r]` after the store, and goes to `V[r]` in the load (O28, O29). -/
theorem loadRestoresWhatStoreSaved : Obligations.LoadRestoresWhatStoreSaved := by
  intro s t u x hm hend hstore hmem hi
  obtain ⟨-, hsaves, -⟩ := storeWritesV0ToVx s x hm
  obtain ⟨t', ht', hsaved, -, -, hframe⟩ := hsaves _ rfl hend
  obtain rfl : t = t' := Host.Outcome.next.inj (hstore.symm.trans ht')
  have hI : u.i = s.i := by rw [hi, hframe]
  obtain ⟨-, hloads, -⟩ := loadReadsV0ToVx u x
  obtain ⟨w, hload, hreg, -⟩ := hloads (hI ▸ hend)
  have hbyte : ∀ r : RegIdx, r.val ≤ x.val → Memory.byteAt u.mem (u.i.toNat + r.val) = s.reg r := by
    rw [hmem, hI]
    exact hsaved
  exact ⟨w, hload, fun r hr => (hreg r).trans ((if_pos hr).trans (hbyte r hr)),
    fun r hr => (hreg r).trans (if_neg (Nat.not_le.2 hr))⟩

/-! ## Writing I (R139 to R141) -/

/-- Settles O24: LD I writes I alone. -/
theorem loadIndexSetsI : Obligations.LoadIndexSetsI := by
  intro s nnn
  exact ⟨decodeWord_encode (i := .ldI nnn) rfl, _, rfl, rfl, rfl, rfl, fun _ => rfl⟩

/-- The registers after Fx1E: VF holds the overflow where `FX1E_SETS_VF` says so (D28), and the others stay. -/
theorem reg_execAddI {x : RegIdx} {s t : State} (h : execAddI x s = .next t) (r : RegIdx) :
    t.reg r = if s.fx1eSetsVf = true ∧ r = 15 then flagByte (indexOverflow s.i (s.reg x)) else s.reg r := by
  have hv : t.v = if s.fx1eSetsVf then (s.setFlag (indexOverflow s.i (s.reg x))).v else s.v := by
    rw [← Host.Outcome.next.inj h, State.act_v]
  cases hf : s.fx1eSetsVf with
  | false =>
    rw [hf] at hv
    rw [State.reg_congr hv, if_neg (by simp)]
  | true =>
    rw [hf] at hv
    rw [State.reg_congr hv, State.reg_setFlag]
    simp only [true_and]

/-- Settles O25: I is reduced modulo 4096, and the flag is the comparison of the sum before that. -/
theorem addToIndexWraps : Obligations.AddToIndexWraps := by
  intro s x
  simp only [← flagByte_decide]
  exact ⟨decodeWord_encode (i := .addI x) rfl, _, rfl, toNat_indexSum s.i (s.reg x), reg_execAddI rfl, rfl, rfl,
    fun _ => rfl⟩

/-- Settles O26: 5 times a byte fits in I. -/
theorem glyphLoadSetsI : Obligations.GlyphLoadSetsI := by
  intro s x
  exact ⟨decodeWord_encode (i := .ldF x) rfl, _, rfl, toNat_glyphAddr (s.reg x), rfl, rfl, fun _ => rfl⟩

end Sys2Proof.Machine
end

section
/-! PROOF. The display (spec/44_display.md): clear, and XOR-draw with collision. The pixels that the loops of DRW toggle
are those of `UnderSprite`, and what a draw does to each pixel and to VF is `Drawn`. -/

namespace Sys2Proof.Machine

/-! ## Clear (R150) -/

/-- Settles O32: CLS leaves the clear framebuffer, whose pixels are all 0. -/
theorem clearScreenClearsEveryPixel : Obligations.ClearScreenClearsEveryPixel := by
  intro s
  exact ⟨decodeWord_encode (i := .cls) rfl, _, rfl, Framebuffer.pixel_clear, rfl, rfl, rfl, fun _ => rfl⟩

/-! ## The pixels under a sprite (R145 to R147) -/

theorem litInRow_iff {b x0 y0 : Byte} {q : Nat} {row : Fin Config.displayH} {col : Fin Config.displayW} :
    litInRow b (spriteRow y0 q) x0 (List.range 8) row col ↔
      ∃ j, j < 8 ∧ b.getLsbD (7 - j) = true ∧ row.val = (y0.toNat + q) % 32 ∧ col.val = (x0.toNat + j) % 64 := by
  simp only [litInRow, List.mem_range, spriteBit, Fin.ext_iff, spriteRow, spriteCol]
  exact ⟨fun ⟨hr, j, hj, hb, hc⟩ => ⟨j, hj, hb, hr, hc⟩, fun ⟨j, hj, hb, hr, hc⟩ => ⟨hr, j, hj, hb, hc⟩⟩

/-- The loops' lit pixels, of the bytes read at `a`, are the pixels under the sprite at `a`. -/
theorem litInRows_bytesFrom {mem : Memory} {a n : Nat} {x0 y0 : Byte} {row : Fin Config.displayH}
    {col : Fin Config.displayW} :
    litInRows x0 y0 0 (Memory.bytesFrom mem a n) row col ↔ UnderSprite mem a n x0 y0 row col := by
  simp only [litInRows, litInRow_iff, Memory.getElem_bytesFrom, Memory.length_bytesFrom, Nat.zero_add]
  exact ⟨fun ⟨r, hr, j, h⟩ => ⟨r, j, hr, h⟩, fun ⟨r, j, hr, h⟩ => ⟨r, hr, j, h⟩⟩

/-- The pixels of one sprite row, listed, have no repeats (R147). -/
theorem nodup_spriteRowPixels (b x0 : Byte) (row : Fin Config.displayH) :
    (((List.range 8).filter (spriteBit b)).map (fun j => (row, spriteCol x0 j))).Nodup := by
  refine (List.nodup_range.filter _).map_on fun j hj k hk h => ?_
  exact spriteCol_inj (List.mem_range.1 (List.mem_filter.1 hj).1) (List.mem_range.1 (List.mem_filter.1 hk).1)
    (congrArg Prod.snd h)

/-- Sprite rows below one another, up to a screen's height of them, lie on different rows of the screen, so the
pixels of a draw have no repeats (R147). -/
theorem nodup_spritePixels (x0 y0 : Byte) (q : Nat) (bytes : List Byte) (h : q + bytes.length ≤ 32) :
    (spritePixels x0 y0 q bytes).Nodup := by
  induction bytes generalizing q with
  | nil => exact List.nodup_nil
  | cons b rest ih =>
    rw [List.length_cons] at h
    refine (nodup_spriteRowPixels b x0 _).append (ih (q + 1) (by omega)) fun p hp hp' => ?_
    obtain ⟨j, -, rfl⟩ := List.mem_map.1 hp
    obtain ⟨k, hk, hrow, -⟩ := mem_spritePixels.1 hp'
    have : q = q + 1 + k := spriteRow_inj (by omega) (by omega) hrow
    omega

/-! ## One draw (R148, R151) -/

/-- A draw of at most 15 rows turns over the pixels under the sprite, and its flag tells whether one of them was 1. -/
theorem drawn_drawnCanvas (s : State) (x y : RegIdx) {n : Nat} (hn : n ≤ 15) :
    Drawn (UnderSprite s.mem s.i.toNat n (s.reg x) (s.reg y)) ⟨s.fb, false⟩ (drawnCanvas x y n s) := by
  have hdrawn := drawRows_drawn (s.reg x) (s.reg y) 0 (Memory.bytesFrom s.mem s.dataAddr n)
    (by rw [Memory.length_bytesFrom]; omega) ⟨s.fb, false⟩
  have hlit : litInRows (s.reg x) (s.reg y) 0 (Memory.bytesFrom s.mem s.dataAddr n) =
      UnderSprite s.mem s.i.toNat n (s.reg x) (s.reg y) :=
    funext fun _ => funext fun _ => propext litInRows_bytesFrom
  exact hlit ▸ hdrawn

/-- The flag of a draw that began with none: some pixel drawn was 1 (R148). -/
theorem Drawn.hit_iff {lit : Fin Config.displayH → Fin Config.displayW → Prop} {fb : Framebuffer} {c : Canvas}
    (h : Drawn lit ⟨fb, false⟩ c) :
    c.hit = true ↔ ∃ row col, lit row col ∧ Framebuffer.pixel fb row col = true := by
  rw [h.hit]
  exact or_iff_right Bool.false_ne_true

theorem flagByte_eq_one {c : Bool} : flagByte c = 1 ↔ c = true := by
  cases c <;> decide

/-- The state after a DRW whose sprite is inside memory. -/
def State.drawn (x y : RegIdx) (n : Nat) (s : State) : State :=
  State.act (State.setFlag
    { s with fb := (drawnCanvas x y n s).fb, dirty := true } (drawnCanvas x y n s).hit) .advance

theorem exec_drw_inside {s : State} {n : Nat} (x y : RegIdx) (h : n = 0 ∨ s.i.toNat + n - 1 ≤ 0xFFF) :
    exec (.drw x y n) s = .next (s.drawn x y n) := by
  have hb : n = 0 ∨ s.dataAddr + n ≤ Config.memSize := by
    simp only [State.dataAddr, Config.memSize]
    omega
  exact execDrw_inside hb

/-- The registers after a DRW: the flag is in VF, and the others stay (R149). -/
theorem State.reg_drawn (s : State) (x y : RegIdx) (n : Nat) (r : RegIdx) :
    (s.drawn x y n).reg r = if r = 15 then flagByte (drawnCanvas x y n s).hit else s.reg r :=
  State.reg_setFlag _ _ r

theorem State.reg_drawn_vf (s : State) (x y : RegIdx) (n : Nat) :
    (s.drawn x y n).reg 15 = flagByte (drawnCanvas x y n s).hit :=
  (s.reg_drawn x y n 15).trans (if_pos rfl)

theorem State.reg_drawn_of_ne (s : State) (x y : RegIdx) (n : Nat) {r : RegIdx} (hr : r ≠ 15) :
    (s.drawn x y n).reg r = s.reg r :=
  (s.reg_drawn x y n r).trans (if_neg hr)

/-- Settles O33: the canvas of the draw is `Drawn`, and the rest of the state is that of `State.drawn`. -/
theorem drawXorsTheSprite : Obligations.DrawXorsTheSprite := by
  intro s x y n hn
  have hdecode : decodeWord (encode (.drw x y n)) = .ok (.drw x y n) := decodeWord_encode (decide_eq_true hn)
  refine ⟨hdecode, fun h => ?_, fun ⟨h0, h⟩ => ?_⟩
  · have hdrawn := drawn_drawnCanvas s x y hn
    refine ⟨_, exec_drw_inside x y h, hdrawn.under, hdrawn.beside, fun hset => ?_, fun hclear => ?_,
      fun r hr => s.reg_drawn_of_ne x y n hr, rfl, rfl, rfl, fun _ => rfl⟩
    · rw [State.reg_drawn_vf, hdrawn.hit_iff.2 hset]
      rfl
    · rw [State.reg_drawn_vf, Bool.eq_false_iff.2 (mt hdrawn.hit_iff.1 hclear)]
      rfl
  · have hb : Config.memSize < s.dataAddr + n := by
      simp only [State.dataAddr, Config.memSize]
      omega
    exact takesFatal_of_raiseIn (execDrw_outside (Nat.ne_of_gt h0) hb)

/-! ## The order of the toggles (R147) -/

/-- Settles O34: rows and columns of a sprite are distinct, and toggles commute. -/
theorem spriteBitsLandOnDistinctPixels : Obligations.SpriteBitsLandOnDistinctPixels := by
  intro s x y n hn hin
  refine ⟨fun r q j k hr hq hj hk hrow hcol => ?_, nodup_spritePixels _ _ 0 _ (by rw [Memory.length_bytesFrom]; omega),
    fun row col => mem_spritePixels.trans litInRows_bytesFrom, fun ps hps => ?_⟩
  · exact ⟨spriteRow_inj (y0 := s.reg y) (by omega) (by omega) (Fin.ext hrow),
      spriteCol_inj (x0 := s.reg x) hj hk (Fin.ext hcol)⟩
  · have hcanvas : drawPixels ps ⟨s.fb, false⟩ = drawnCanvas x y n s :=
      (drawPixels_perm hps _).trans (drawRows_eq_drawPixels ..).symm
    rw [hcanvas]
    exact ⟨_, exec_drw_inside x y hin, rfl, by rw [State.reg_drawn_vf, flagByte_eq_one]⟩

/-! ## Two draws (R148, R151) -/

section
variable {lit : Fin Config.displayH → Fin Config.displayW → Prop} {fb : Framebuffer} {b c : Canvas}

/-- Every pixel drawn twice has turned over twice. -/
theorem Drawn.fb_twice (h : Drawn lit ⟨fb, false⟩ b) (h' : Drawn lit ⟨b.fb, false⟩ c) : c.fb = fb := by
  apply Framebuffer.ext_pixel
  intro row col
  by_cases hl : lit row col
  · rw [h'.under _ _ hl, h.under _ _ hl, Bool.not_not]
  · rw [h'.beside _ _ hl, h.beside _ _ hl]

/-- The second of two equal draws meets a 1 where the first one set it, that is where there was a 0. -/
theorem Drawn.hit_twice (h : Drawn lit ⟨fb, false⟩ b) (h' : Drawn lit ⟨b.fb, false⟩ c) :
    c.hit = true ↔ ∃ row col, lit row col ∧ Framebuffer.pixel fb row col = false := by
  rw [h'.hit_iff]
  refine exists_congr fun row => exists_congr fun col => and_congr_right fun hl => ?_
  rw [h.under _ _ hl, Bool.not_eq_true']

end

/-- Settles O35: with x and y not F the second draw is of the same sprite at the same place. -/
theorem drawingTwiceRestoresTheScreen : Obligations.DrawingTwiceRestoresTheScreen := by
  intro s t x y n hn hx hy hin hst
  obtain rfl : s.drawn x y n = t := Host.Outcome.next.inj ((exec_drw_inside x y hin).symm.trans hst)
  have hfirst := drawn_drawnCanvas s x y hn
  have hsecond : Drawn (UnderSprite s.mem s.i.toNat n (s.reg x) (s.reg y)) ⟨(drawnCanvas x y n s).fb, false⟩
      (drawnCanvas x y n (s.drawn x y n)) := by
    have hdrawn := drawn_drawnCanvas (s.drawn x y n) x y hn
    rwa [State.reg_drawn_of_ne s x y n hx, State.reg_drawn_of_ne s x y n hy] at hdrawn
  refine ⟨_, exec_drw_inside x y hin, hfirst.fb_twice hsecond, ?_⟩
  rw [State.reg_drawn_vf, flagByte_eq_one]
  exact hfirst.hit_twice hsecond

end Sys2Proof.Machine
end

section
/-! PROOF. Keypad and timers (spec/45_keypad_timers.md): key skips, the entry to the key wait, and the timer
transfers. -/

namespace Sys2Proof.Machine

/-! ## Key skips (R152, R154, R155) -/

/-- The skip on a key that is not pressed goes to PC + 2 where it is (R155). -/
theorem nextPc_skipIf_not (pc0 : Word) (c : Bool) :
    nextPc pc0 (skipIf (!c)) = if c = true then pc0 + 2 else pc0 + 4 := by
  cases c <;> rfl

/-- Settles O36: a Vx up to 15 names a key, on which both skips answer `skipIf`, and a larger one names none. -/
theorem keySkipsReadTheLatch : Obligations.KeySkipsReadTheLatch := by
  intro s x
  refine ⟨decodeWord_encode (i := .skp x) rfl, decodeWord_encode (i := .sknp x) rfl, fun hkey => ⟨?_, ?_⟩,
    fun hno => ⟨?_, ?_⟩⟩
  · exact goesTo_of_act (execSkp_key hkey) (nextPc_skipIf ..)
  · exact goesTo_of_act (execSknp_key hkey) (nextPc_skipIf_not ..)
  · exact takesFatal_of_raiseIn (execSkp_noKey hno)
  · exact takesFatal_of_raiseIn (execSknp_noKey hno)

/-! ## The key wait (R156) -/

/-- No key is pressed in the cleared latch. -/
@[simp] theorem keyPressed_zero (k : Nat) : keyPressed 0 k = false := BitVec.getLsbD_zero

/-- Settles O37: the latch is the cleared one, and the PC action is `hold`. -/
theorem keyWaitIsEntered : Obligations.KeyWaitIsEntered := by
  intro s x
  exact ⟨decodeWord_encode (i := .ldVxK x) rfl, _, rfl, fun k => keyPressed_zero k.val, rfl, rfl, rfl, fun _ => rfl⟩

/-! ## Timer transfers (R157 to R159) -/

/-- Settles O38: LD Vx, DT is a write of Vx alone, and LD DT, Vx writes the delay timer and PC. -/
theorem delayTimerTransfers : Obligations.DelayTimerTransfers := by
  intro s x
  exact ⟨decodeWord_encode (i := .ldVxDt x) rfl, writesRegs_of_writeReg rfl, decodeWord_encode (i := .ldDtVx x) rfl,
    _, rfl, rfl, rfl, rfl, fun _ => rfl⟩

/-- The sound is on while the sound timer is not 0 (R55). -/
theorem State.soundActive_iff (s : State) : s.soundActive = true ↔ s.sound ≠ 0 := bne_iff_ne

/-- Settles O39: the sound timer becomes Vx, and the output follows it. -/
theorem soundTimerIsSet : Obligations.SoundTimerIsSet := by
  intro s x
  exact ⟨decodeWord_encode (i := .ldStVx x) rfl, _, rfl, rfl, State.soundActive_iff _, rfl, rfl, fun _ => rfl⟩

end Sys2Proof.Machine
end

section
/-! PROOF. Exceptions and timers (spec/60_exceptions.md): the tick and how fast it counts, `tone_complete`, the
precision of a fatal error, and the entry to the key wait. -/

namespace Sys2Proof.Machine

/-! ## The tick (R173, R174) -/

theorem State.tickDue_iff (s : State) : s.tickDue = true ↔ s.tRef ≤ s.now ∧ s.second ≤ 60 * (s.now - s.tRef) :=
  decide_eq_true_iff

theorem State.tickDue_eq_false (s : State) :
    s.tickDue = false ↔ s.now < s.tRef ∨ 60 * (s.now - s.tRef) < s.second := by
  rw [← Bool.not_eq_true, State.tickDue_iff, not_and_or, Nat.not_le, Nat.not_le]

theorem State.tick_due {s : State} (h : s.tickDue = true) :
    s.tick = { s with delay := countDown s.delay, sound := countDown s.sound, tRef := s.now } := by
  simp only [State.tick, h, if_true]

/-- Settles O47: the tick counts down where it is due, and is no change where it is not. -/
theorem tickCountsDownWhenDue : Obligations.TickCountsDownWhenDue := by
  intro s
  refine ⟨fun h => ?_, fun h => State.tick_notDue (s.tickDue_eq_false.2 h)⟩
  rw [State.tick_due (s.tickDue_iff.2 h)]
  exact ⟨toNat_countDown _, toNat_countDown _, rfl, rfl⟩

@[simp] theorem ticksAt_cons (s : State) (n : Nat) (nows : List Nat) :
    ticksAt s (n :: nows) = ticksAt (State.tick { s with now := n }) nows := rfl

/-- Times less than a period after `t_ref` make no tick due. -/
theorem ticksAt_notDue {s : State} {nows : List Nat} (h : ∀ b ∈ nows, 60 * (b - s.tRef) < s.second) :
    (ticksAt s nows).delay = s.delay ∧ (ticksAt s nows).sound = s.sound := by
  induction nows generalizing s with
  | nil => exact ⟨rfl, rfl⟩
  | cons n nows ih =>
    obtain ⟨hn, hnows⟩ := List.forall_mem_cons.1 h
    rw [ticksAt_cons, State.tick_notDue ((State.tickDue_eq_false _).2 (.inr hn))]
    exact ih hnows

/-- Among times within a period of one another one tick at most is due, because it moves `t_ref` to its own time. -/
theorem ticksAt_counters {s : State} {nows : List Nat} (h : ∀ a ∈ nows, ∀ b ∈ nows, 60 * (a - b) < s.second) :
    ((ticksAt s nows).delay = s.delay ∧ (ticksAt s nows).sound = s.sound) ∨
      ((ticksAt s nows).delay = countDown s.delay ∧ (ticksAt s nows).sound = countDown s.sound) := by
  induction nows generalizing s with
  | nil => exact .inl ⟨rfl, rfl⟩
  | cons n nows ih =>
    rw [ticksAt_cons]
    cases hdue : State.tickDue { s with now := n } with
    | true =>
      rw [State.tick_due hdue]
      exact .inr (ticksAt_notDue fun b hb => h b (.tail _ hb) n (.head _))
    | false =>
      rw [State.tick_notDue hdue]
      exact ih fun a ha b hb => h a (.tail _ ha) b (.tail _ hb)

/-- Settles O48: the counters stay or count down once. -/
theorem ticksWithinOnePeriodCountOnce : Obligations.TicksWithinOnePeriodCountOnce := by
  intro s nows h
  rcases ticksAt_counters h with ⟨hdelay, hsound⟩ | ⟨hdelay, hsound⟩
  · rw [hdelay, hsound]
    omega
  · rw [hdelay, hsound, toNat_countDown, toNat_countDown]
    omega

/-! ## Safe states in a cycle (R97, R99) -/

/-- A block in Running has taken no fatal error. -/
theorem State.safe_of_running {s : State} (hm : s.mode = .running) : s.Safe :=
  fun _ hrec => Mode.noConfusion (hm.symm.trans hrec)

/-- The check of the keys takes no fatal error (R99). -/
theorem State.safe_checkKeys {s : State} {x : RegIdx} (hm : s.mode = .awaitingKey x) : (s.checkKeys x).Safe := by
  rcases s.checkKeys_mode x with h | ⟨h, -⟩
  · exact State.safe_of_running h
  · exact fun _ hrec => Mode.noConfusion ((h.trans hm).symm.trans hrec)

/-! ## `tone_complete` (R101, R175) -/

theorem State.endCycle_toneComplete_iff (u : State) (s0 : Byte) (st : CycleStatus) :
    (u.endCycle s0 st).toneComplete = true ↔ s0 ≠ 0 ∧ (u.endCycle s0 st).sound = 0 := by
  rw [State.endCycle_toneComplete, State.endCycle_sound, Bool.and_eq_true, decide_eq_true_iff, decide_eq_true_iff]
  exact and_congr (not_congr (BitVec.toNat_inj (y := 0))) (BitVec.toNat_inj (y := 0))

/-- `tone_complete` after a cycle that reached its end. -/
theorem toneComplete_of_endCycle {u t : State} {s0 : Byte} {st : CycleStatus} (hu : u.Safe)
    (ht : t = u.endCycle s0 st) :
    (t.Safe → (t.toneComplete = true ↔ s0 ≠ 0 ∧ t.sound = 0)) ∧
      (∀ rec, t.mode = .faulted rec → t.toneComplete = false) := by
  subst ht
  exact ⟨fun _ => u.endCycle_toneComplete_iff s0 st, fun rec hrec => absurd hrec (hu rec)⟩

/-- Settles O49: a cycle ends in a fatal error, which reports 0, or reaches its end, where the two values of `sound` are
compared. -/
theorem toneCompleteIsOneShot : Obligations.ToneCompleteIsOneShot := by
  intro s t h
  cases step_cases h with
  | faulted rec hm ht => exact ht ▸ ⟨fun hs => absurd hm (hs rec), fun _ _ => rfl⟩
  | notFetched hm hf ht => exact ht ▸ ⟨fun hs => absurd (State.raise_mode ..) (hs _), fun _ _ => rfl⟩
  | fatal op i code hm hf hd he ht => exact ht ▸ ⟨fun hs => absurd (State.raiseIn_mode ..) (hs _), fun _ _ => rfl⟩
  | awaiting x hm ht => exact toneComplete_of_endCycle (State.safe_checkKeys (s := s.beginCycle) hm) ht
  | unsupported op e hm hf hd ht =>
    exact toneComplete_of_endCycle (State.safe_of_running (s := s.beginCycle.act .advance) hm) ht
  | executed op i u hm hf hd he hu ht => exact toneComplete_of_endCycle hu ht

/-! ## Fatal errors (R162 to R164) -/

/-- Settles O52: a fatal cycle fetches nothing, or fetches the word that its instruction encodes; in either case it is
the request and `raise`. -/
theorem fatalErrorsArePrecise : Obligations.FatalErrorsArePrecise := by
  intro s t rec hrun h hrec
  cases step_cases h with
  | faulted _ hm _ | awaiting _ hm _ => exact Mode.noConfusion (hrun.symm.trans hm)
  | notFetched hm hf ht =>
    subst ht
    cases hrec
    exact ⟨rfl, hf.symm, rfl⟩
  | unsupported op e hm hf hd ht =>
    subst ht
    exact absurd hrec (State.safe_of_running hm rec)
  | fatal op i code hm hf hd he ht =>
    obtain ⟨hop, -⟩ := encodeOfDecodeIsIdentity op i hd
    subst ht
    cases hrec
    exact ⟨rfl, hf ▸ congrArg some hop, rfl⟩
  | executed op i u hm hf hd he hu ht =>
    subst ht
    exact absurd hrec (hu rec)

/-! ## Entering the key wait (R106, R180) -/

/-- From Running, an instruction that leaves the engine waiting is Fx0A. -/
theorem eq_ldVxK_of_exec {i : Instr} {s u : State} {x : RegIdx} (hm : s.mode = .running) (h : exec i s = .next u)
    (hu : u.mode = .awaitingKey x) : i = .ldVxK x := by
  obtain ⟨t, ht, hcases⟩ := exec_cases i s
  obtain rfl := Host.Outcome.next.inj (ht.symm.trans h)
  rcases hcases with ⟨code, rfl⟩ | ⟨-, hmode | ⟨y, hi, hmode⟩⟩
  · cases hu
  · exact Mode.noConfusion ((hmode.trans hm).symm.trans hu)
  · exact hi.trans (congrArg Instr.ldVxK (Mode.awaitingKey.inj (hmode.symm.trans hu)))

/-- Settles O53: of the cycles from Running only one that executes an instruction can end in the wait, and the
instruction is Fx0A, whose PC action is `hold`. -/
theorem onlyFx0AEntersTheKeyWait : Obligations.OnlyFx0AEntersTheKeyWait := by
  intro s t x hrun h hwait
  cases step_cases h with
  | faulted _ hm _ | awaiting _ hm _ => exact Mode.noConfusion (hrun.symm.trans hm)
  | notFetched _ _ ht | fatal _ _ _ _ _ _ _ ht => exact Mode.noConfusion (hwait.symm.trans (congrArg State.mode ht))
  | unsupported op e hm hf hd ht =>
    subst ht
    exact Mode.noConfusion (hm.symm.trans hwait)
  | executed op i u hm hf hd he hu ht =>
    subst ht
    obtain rfl := eq_ldVxK_of_exec (s := s.beginCycle) (u := u) hm he hwait
    obtain rfl := Host.Outcome.next.inj he
    exact ⟨⟨op, hf, hd⟩, rfl⟩

end Sys2Proof.Machine
end

section
/-! PROOF. Construction with a ROM that is too long (R183) and with the arguments of `State.reset` (R186). -/

namespace Sys2Proof.Machine

/-! ## Rejection of a long ROM (R183) -/

/-- A ROM that does not fit leaves the blank state, Faulted, with the font as all its memory. -/
theorem construct_rejects {a : ConstructArgs} (h : 3584 < a.rom.length) :
    construct a = ({ blankState a with mode := .faulted romTooLargeRecord }, .fatal romTooLargeRecord) :=
  if_pos h

/-- Settles O8: nothing is written to memory after the font, and past the font it reads 0. -/
theorem constructionRejectsALongRom : Obligations.ConstructionRejectsALongRom := by
  intro a ha
  rw [construct_rejects ha]
  refine ⟨rfl, rfl, rfl, fontMemory_wf a.font, fun k => ?_, fun b hb _ => ?_⟩
  · exact (byteAt_fontMemory a.font k).trans (dif_pos k.isLt)
  · exact (byteAt_fontMemory a.font b).trans (dif_neg (Nat.not_lt.2 hb))

/-! ## The arguments of `State.reset` (R186) -/

/-- The default font is what its addresses read as unlisted, so copying it lists none of them. -/
theorem fontMemory_default : fontMemory defaultArgs.font = [] := by decide

/-- The blank state of the default arguments is `State.reset`. -/
theorem blankState_default : blankState defaultArgs = State.reset := by
  rw [blankState, fontMemory_default]
  rfl

/-- Settles O9: the empty ROM fits, and copying it leaves the blank state. -/
theorem resetIsADefaultConstruction : Obligations.ResetIsADefaultConstruction :=
  calc construct defaultArgs
    _ = (blankState defaultArgs, .ok) := construct_fits (Nat.zero_le _)
    _ = (State.reset, .ok) := by rw [blankState_default]

end Sys2Proof.Machine
end
